-- ==== Sys2Proof/Word.lean ====
section
/-! DEFINITION. The machine word and the register number (spec/00_scope.md R7, R8; spec/10_state.md R11). -/

namespace Sys2Proof

/-- A 32-bit word: an instruction word, a register, a data word or the pc (R7).
`u(v)` of R8 is `v.toNat`, `s(v)` is `v.toInt`; `+` and `-` are modulo 2^32 (R112). -/
abbrev Word := BitVec 32

/-- A register number. Every value of the 4-bit field names an existing register, and none is
hardwired (R11). -/
abbrev Reg := Fin 16

/-- Register 15 is the stack pointer (R12): one storage cell under two names. -/
def spReg : Reg := 15

end Sys2Proof
end

