-- ==== Sys2Proof/Syntax.lean ====
section
/-! DEFINITION. The instructions: one constructor for each of the twelve opcodes of
spec/30_encoding.md R56, with the operands R55 gives it, and the raw field record of R52. -/

namespace Sys2Proof

/-- The branch condition held in `reg_or_cond` of BRANCH and CALL (spec/30_encoding.md R57).
`reserved n` is the value `7 + n`, which has no name and raises `Condition` when executed (R58). -/
inductive Cond where
  | nc
  | eq
  | ne
  | gt
  | ge
  | lt
  | le
  | reserved (n : Fin 9)
deriving DecidableEq, Repr

/-- An address operand (spec/30_encoding.md R54): the absolute form (20 bits, unsigned) or the
indexed form (an index register and a 16-bit signed offset). -/
inductive Addr where
  | abs (a : BitVec 20)
  | idx (rindex : Reg) (offset : BitVec 16)
deriving DecidableEq, Repr

/-- An operand (R54): a 20-bit signed literal, or an address. STORE, BRANCH, CALL and POP decode
with the literal form too: executing it is what raises `Immediate` (R58). -/
inductive Operand where
  | imm (v : BitVec 20)
  | mem (ad : Addr)
deriving DecidableEq, Repr

/-- The twelve instructions, in the order of R56. A bit that an opcode ignores (R55) is not part of
the instruction. -/
inductive Instr where
  | illop
  | nop
  | load (r : Reg) (src : Operand)
  | store (r : Reg) (dst : Operand)
  | add (r : Reg) (src : Operand)
  | sub (r : Reg) (src : Operand)
  | branch (c : Cond) (target : Operand)
  | call (c : Cond) (target : Operand)
  | ret
  | push (src : Operand)
  | pop (dst : Operand)
  | halt
deriving DecidableEq, Repr

/-- The eight fields of an instruction word, all extracted whatever the opcode (R51, R52).
`absAddr` and `immVal` are the same twenty bits, to be read unsigned and signed. -/
structure Fields where
  opcode : BitVec 6
  immediate : BitVec 1
  indexed : BitVec 1
  regOrCond : BitVec 4
  absAddr : BitVec 20
  immVal : BitVec 20
  rindex : BitVec 4
  offset : BitVec 16
deriving DecidableEq, Repr

end Sys2Proof
end

