-- ==== Sys2Proof/Decode.lean ====
section
/-! DEFINITION. The decoder and the encoder of spec/30_encoding.md: the field layout (R51, R52), the
operand forms (R54), the fields each opcode uses (R55), the opcode and condition numbers (R56, R57),
and the canonical encoding (R59). -/

namespace Sys2Proof

/-- Why a word is no instruction: its opcode is 12 to 63 (R58 (1)). Executing it raises `Illegal`
(spec/40_decode_resolve_dispatch.md R79). -/
inductive DecodeError where
  | opcodeOutOfRange (opcode : BitVec 6)
deriving DecidableEq, Repr

/-- `decode(iw)` of R52: every field of the word, whatever the opcode. -/
def decodeFields (iw : Word) : Fields where
  opcode := iw.extractLsb' 0 6
  immediate := iw.extractLsb' 6 1
  indexed := iw.extractLsb' 7 1
  regOrCond := iw.extractLsb' 8 4
  absAddr := iw.extractLsb' 12 20
  immVal := iw.extractLsb' 12 20
  rindex := iw.extractLsb' 12 4
  offset := iw.extractLsb' 16 16

/-- `encode(f)` of R59, from the header fields and one view of the payload. -/
def encodeFields (opcode : BitVec 6) (immediate indexed : BitVec 1) (regOrCond : BitVec 4)
    (payload : BitVec 20) : Word :=
  opcode.setWidth 32 ||| immediate.setWidth 32 <<< 6 ||| indexed.setWidth 32 <<< 7 |||
    regOrCond.setWidth 32 <<< 8 ||| payload.setWidth 32 <<< 12

/-- The payload of the indexed view: `rindex | offset << 4` (R59). -/
def indexPayload (rindex : BitVec 4) (offset : BitVec 16) : BitVec 20 :=
  rindex.setWidth 20 ||| offset.setWidth 20 <<< 4

/-- The register that a 4-bit field names (R11). -/
def regOfField (b : BitVec 4) : Reg := b.toFin

/-- The 4-bit field that names a register (R11). -/
def fieldOfReg (r : Reg) : BitVec 4 := BitVec.ofFin r

/-- The condition that a 4-bit field holds (R57). -/
def condOfField (b : BitVec 4) : Cond :=
  match b.toNat with
  | 0 => .nc
  | 1 => .eq
  | 2 => .ne
  | 3 => .gt
  | 4 => .ge
  | 5 => .lt
  | 6 => .le
  | n => .reserved (Fin.ofNat 9 (n - 7))

/-- The number of a condition (R57). -/
def fieldOfCond : Cond → BitVec 4
  | .nc => 0
  | .eq => 1
  | .ne => 2
  | .gt => 3
  | .ge => 4
  | .lt => 5
  | .le => 6
  | .reserved n => BitVec.ofNat 4 (7 + n.val)

/-- The address form the `indexed` flag selects (R54, R74). -/
def addrOfFields (f : Fields) : Addr :=
  if f.indexed = 1 then .idx (regOfField f.rindex) f.offset else .abs f.absAddr

/-- The operand form the two flags select; `immediate` wins when both are set (R54). -/
def operandOfFields (f : Fields) : Operand :=
  if f.immediate = 1 then .imm f.immVal else .mem (addrOfFields f)

/-- The instruction a word holds, selected by `iw[5:0]` alone (R56); opcodes 12 to 63 are refused by
name (R58). Total: no other field can make a word undecodable (R52). -/
def decode (iw : Word) : Except DecodeError Instr :=
  let f := decodeFields iw
  match f.opcode.toNat with
  | 0 => .ok .illop
  | 1 => .ok .nop
  | 2 => .ok (.load (regOfField f.regOrCond) (operandOfFields f))
  | 3 => .ok (.store (regOfField f.regOrCond) (operandOfFields f))
  | 4 => .ok (.add (regOfField f.regOrCond) (operandOfFields f))
  | 5 => .ok (.sub (regOfField f.regOrCond) (operandOfFields f))
  | 6 => .ok (.branch (condOfField f.regOrCond) (operandOfFields f))
  | 7 => .ok (.call (condOfField f.regOrCond) (operandOfFields f))
  | 8 => .ok .ret
  | 9 => .ok (.push (operandOfFields f))
  | 10 => .ok (.pop (operandOfFields f))
  | 11 => .ok .halt
  | _ => .error (.opcodeOutOfRange f.opcode)

/-- The opcode number of an instruction (R56). -/
def opcodeOf : Instr → BitVec 6
  | .illop => 0
  | .nop => 1
  | .load _ _ => 2
  | .store _ _ => 3
  | .add _ _ => 4
  | .sub _ _ => 5
  | .branch _ _ => 6
  | .call _ _ => 7
  | .ret => 8
  | .push _ => 9
  | .pop _ => 10
  | .halt => 11

/-- The word with a given opcode, `reg_or_cond` field and operand, its ignored bits 0 (R54, R59). -/
def encodeOperand (opcode : BitVec 6) (regOrCond : BitVec 4) : Operand → Word
  | .imm v => encodeFields opcode 1 0 regOrCond v
  | .mem (.abs a) => encodeFields opcode 0 0 regOrCond a
  | .mem (.idx r off) => encodeFields opcode 0 1 regOrCond (indexPayload (fieldOfReg r) off)

/-- The canonical word of an instruction: every bit it ignores is 0 (R59). -/
def encode (i : Instr) : Word :=
  match i with
  | .illop => encodeFields (opcodeOf i) 0 0 0 0
  | .nop => encodeFields (opcodeOf i) 0 0 0 0
  | .load r src => encodeOperand (opcodeOf i) (fieldOfReg r) src
  | .store r dst => encodeOperand (opcodeOf i) (fieldOfReg r) dst
  | .add r src => encodeOperand (opcodeOf i) (fieldOfReg r) src
  | .sub r src => encodeOperand (opcodeOf i) (fieldOfReg r) src
  | .branch c target => encodeOperand (opcodeOf i) (fieldOfCond c) target
  | .call c target => encodeOperand (opcodeOf i) (fieldOfCond c) target
  | .ret => encodeFields (opcodeOf i) 0 0 0 0
  | .push src => encodeOperand (opcodeOf i) 0 src
  | .pop dst => encodeOperand (opcodeOf i) 0 dst
  | .halt => encodeFields (opcodeOf i) 0 0 0 0

/-- The bits of a word that its instruction uses (R55): with `immediate` set, `indexed` is ignored;
PUSH and POP ignore `reg_or_cond`; ILLOP, NOP, RET and HALT ignore all but the opcode. -/
def usedBits (iw : Word) : Word :=
  let f := decodeFields iw
  let flags : Word := if f.immediate = 1 then 0xFFFFF07F else 0xFFFFF0FF
  match f.opcode.toNat with
  | 0 | 1 | 8 | 11 => 0x0000003F
  | 9 | 10 => flags
  | _ => flags ||| 0x00000F00

/-- The instruction the decoder reads from the low `nbits` bits of `w`, every bit above them 0. A
program word is one 32-bit word with no byte order of its own (spec/20_memory.md R32). -/
def decodeTableWord (nbits w : Nat) : Option Instr :=
  match decode (BitVec.ofNat 32 (w % 2 ^ nbits)) with
  | .ok i => some i
  | .error _ => none

end Sys2Proof
end

