-- ==== Sys2Proof/Config.lean ====
section
/-! DEFINITION. What is fixed from outside CORE: the bound on the size parameters and the sizes of
the reset state in which nothing has been loaded. The spec leaves no value free
(spec/70_reset_and_hazards.md R178), so this file declares no free value. -/

namespace Sys2Proof.Config

/-- `SIZE_MAX = 2^31 - 2^15` of spec/00_scope.md R6: the largest `textsize` and `datasize`. -/
def sizeMax : Nat := 2147450880

/-- What a word that is not listed in a memory reads as. DESIGN CHOICE, unsafe (log entry 2). -/
def unlistedWord : Word := 0

/-- `textsize` with no program loaded. DESIGN CHOICE, unsafe (log entry 3). -/
def resetTextsize : Nat := 0

/-- `datasize` with no program loaded: the only size that leaves room for every value of the open
loader parameter `MINSTACKSIZE` (R172). DESIGN CHOICE, unsafe (log entry 3). -/
def resetDatasize : Nat := sizeMax

/-- `dataend` with no program loaded: no static data. DESIGN CHOICE, unsafe (log entry 3). -/
def resetDataend : Nat := 0

end Sys2Proof.Config
end

