-- ==== Sys2Proof/Machine/State.lean ====
section
/-! DEFINITION. The machine's state (spec/10_state.md R10 to R25), the reasons a step can stop, and
the state after reset. -/

namespace Sys2Proof.Machine

/-- The condition code: the single, four-valued flag of the machine (R16). -/
inductive CC where
  | unknown
  | zero
  | positive
  | negative
deriving DecidableEq, Repr

/-- The fatal error kinds of spec/60_exceptions.md R140. `unknown` belongs to the external
disassembler: no step of CORE raises it (R141). -/
inductive FatalKind where
  | unknown
  | illegal
  | condition
  | immediate
  | segText
  | segData
  | segStack
deriving DecidableEq, Repr

/-- The warning kinds of spec/60_exceptions.md R149. -/
inductive WarningKind where
  | halt
  | pushStatic
deriving DecidableEq, Repr

/-- A warning: its kind and the address of the instruction that emitted it (R21, R149). -/
structure Warning where
  kind : WarningKind
  addr : Int
deriving DecidableEq, Repr

/-- The run status of R20, with the fault record of R21: the kind, and the signed reading of the
faulting instruction's own address. -/
inductive Run where
  | running
  | halted
  | faulted (kind : FatalKind) (addr : Int)
deriving DecidableEq, Repr

/-- A word memory: (index, word) pairs, indices strictly rising, none equal to what an unlisted
index reads as. The machine has no bytes (spec/20_memory.md R31, R35; log entry 1). -/
abbrev Memory := List (Nat × Word)

/-- The machine (R10). The three sizes are parameters of the step (spec/00_scope.md R5) that no
instruction reads or writes; they stand here because a step takes a state alone (log entry 4).
`warnings` is not architectural state either: it accumulates the warning outputs of the steps,
oldest first (R22, R23; log entry 5). -/
structure State where
  regs : Vector Word 16
  pc : Word
  cc : CC
  text : Memory
  data : Memory
  textsize : Nat
  datasize : Nat
  dataend : Nat
  run : Run
  warnings : List Warning
deriving DecidableEq, Repr

/-- Why there is no step at all. A fatal error of the machine is none of these: it is a next state
whose `run` is `faulted` (spec/60_exceptions.md R146). -/
inductive Fault where
  /-- Raised by `step` alone, from a state whose `run` is `halted`: "Both terminal states stop the
  loop" (R20). Safe: the spec defines no step there. -/
  | stoppedHalted
  /-- Raised by `step` alone, from a state whose `run` is `faulted kind addr` (R20, R148). Safe: the
  spec defines no step there. -/
  | stoppedFaulted (kind : FatalKind) (addr : Int)
deriving DecidableEq, Repr

/-- Why an instruction has no meaning in the model. -/
inductive Refusal where
  /-- Raised by nothing: every instruction of the opcode table has its meaning. It would be safe: the
  model would say nothing of that instruction. -/
  | notModelled (mnemonic : String)
deriving DecidableEq, Repr

/-- The machine right after reset (R24), with no program loaded (log entry 3): registers 0 but
`sp = datasize - 1`, `pc = 0`, `cc = Unknown`, `run = Running`. -/
def State.reset : State where
  regs := (Vector.replicate 16 0).set 15 (BitVec.ofNat 32 (Config.resetDatasize - 1))
  pc := 0
  cc := .unknown
  text := []
  data := []
  textsize := Config.resetTextsize
  datasize := Config.resetDatasize
  dataend := Config.resetDataend
  run := .running
  warnings := []

end Sys2Proof.Machine
end

