-- ==== Sys2Proof/Machine/Ops.lean ====
section
/-! DEFINITION. The named operations of the machine: memory, registers, the range tests, the fetch,
raising a fatal error, emitting a warning, and reset by a load operation. -/

namespace Sys2Proof.Machine

/-! ### Memory -/

/-- The word at index `i` (spec/20_memory.md R35). -/
def Memory.read (m : Memory) (i : Nat) : Word :=
  match m with
  | [] => Config.unlistedWord
  | (k, w) :: rest => if k = i then w else Memory.read rest i

/-- The cell in front of `m` that makes index `i` read `v`: none where that is what an unlisted
index reads as. -/
def Memory.cons (i : Nat) (v : Word) (m : Memory) : Memory :=
  if v = Config.unlistedWord then m else (i, v) :: m

/-- Write the word at index `i` (R35), keeping the canonical form. -/
def Memory.write (m : Memory) (i : Nat) (v : Word) : Memory :=
  match m with
  | [] => Memory.cons i v []
  | (k, w) :: rest =>
    if i < k then Memory.cons i v ((k, w) :: rest)
    else if i = k then Memory.cons i v rest
    else (k, w) :: Memory.write rest i v

/-- The canonical form from index `lo` on: indices strictly rising, no cell equal to what an
unlisted index reads as. -/
def Memory.wfFrom (lo : Nat) (m : Memory) : Bool :=
  match m with
  | [] => true
  | (k, w) :: rest =>
    decide (lo ≤ k) && decide (w ≠ Config.unlistedWord) && Memory.wfFrom (k + 1) rest

/-- The canonical form, in which equal memories are equal data. -/
def Memory.wf (m : Memory) : Bool := Memory.wfFrom 0 m

/-- Every listed index is below `n`. -/
def Memory.below (m : Memory) (n : Nat) : Bool := m.all fun c => decide (c.1 < n)

/-- The memory that holds a list of words at consecutive indices from `lo` on. -/
def Memory.ofWords (lo : Nat) (ws : List Word) : Memory :=
  match ws with
  | [] => []
  | w :: rest => Memory.cons lo w (Memory.ofWords (lo + 1) rest)

/-! ### Registers and the other components -/

/-- `x[r]` (spec/00_scope.md R8). No register is hardwired (spec/10_state.md R11). -/
def State.reg (s : State) (r : Reg) : Word := s.regs[r]

/-- `x[r] <- v` (R8). A write of R15 is not range-tested (R13). -/
def State.setReg (s : State) (r : Reg) (v : Word) : State :=
  { s with regs := s.regs.set r v }

/-- `sp`, the other name of `x[15]` (R12). -/
def State.sp (s : State) : Word := s.reg spReg

/-- `sp <- v` (R12). -/
def State.setSp (s : State) (v : Word) : State := s.setReg spReg v

/-- `pc <- v`. -/
def State.setPc (s : State) (v : Word) : State := { s with pc := v }

/-- `cc <- c`. -/
def State.setCc (s : State) (c : CC) : State := { s with cc := c }

/-- `run <- r` (R20). -/
def State.setRun (s : State) (r : Run) : State := { s with run := r }

/-- `valid_data(v)` of spec/20_memory.md R33: `0 ≤ s(v) < datasize`. -/
def State.validData (s : State) (v : Word) : Bool :=
  decide (0 ≤ v.toInt) && decide (v.toInt < s.datasize)

/-- `valid_text(v)` of R33: `0 ≤ s(v) < textsize`. -/
def State.validText (s : State) (v : Word) : Bool :=
  decide (0 ≤ v.toInt) && decide (v.toInt < s.textsize)

/-- `MemRead(a, 1)` of R8: the data word at index `a`. A rule tests `validData` first. -/
def State.dataAt (s : State) (a : Word) : Word := Memory.read s.data a.toNat

/-- `MemWrite(a, 1, v)` of R8. A rule tests `validData` first. -/
def State.setData (s : State) (a v : Word) : State :=
  { s with data := Memory.write s.data a.toNat v }

/-- `TextRead(a)` of R8: the instruction word at index `a`. A step tests `validText` first. -/
def State.textAt (s : State) (a : Word) : Word := Memory.read s.text a.toNat

/-- Put an instruction word at index `i` of the text, which grows to hold it: what a load from
outside CORE does (spec/70_reset_and_hazards.md R171). No step does this (spec/20_memory.md R42). -/
def State.loadWord (s : State) (i : Nat) (w : Word) : State :=
  { s with text := Memory.write s.text i w, textsize := max s.textsize (i + 1) }

/-! ### The stack tests -/

/-- `push_ok(sp)` of spec/45_push_pop.md R130: `1 ≤ s(sp) ≤ datasize - 1`. -/
def State.pushOk (s : State) : Bool :=
  decide (1 ≤ s.sp.toInt) && decide (s.sp.toInt ≤ (s.datasize : Int) - 1)

/-- `pop_ok(sp)` of R130, in the form RET and POP test it (R122, R132): `valid_data(sp + 1)`. -/
def State.popOk (s : State) : Bool := s.validData (s.sp + 1)

/-! ### The fetch -/

/-- The pc's advance, made after the fetch and before the handler for every opcode
(spec/40_decode_resolve_dispatch.md R80, R81). -/
def State.advance (s : State) : State := s.setPc (s.pc + 1)

/-- `a`, the address the running instruction was fetched from. A handler runs with `pc = a + 1`
(spec/10_state.md R15), so `a` is one less than the pc it sees (log entry 6). -/
def State.instrAddr (s : State) : Word := s.pc - 1

/-! ### Fatal errors and warnings -/

/-- `raise K(a)` of spec/60_exceptions.md R146: `run <- Faulted(K, s(a))` and nothing else, which is
taking an exception on this machine. Control goes nowhere: there is no vector, no saved state and no
mode. There is no return from it either (R148, R152): only reset leaves the state. -/
def State.raise (s : State) (k : FatalKind) (a : Word) : State := s.setRun (.faulted k a.toInt)

/-- `warn W(a)` (R8, R149): an output of the step; execution goes on. -/
def State.warn (s : State) (k : WarningKind) (a : Word) : State :=
  { s with warnings := s.warnings ++ [⟨k, a.toInt⟩] }

/-- A test a handler makes before it writes anything (R147): pass, or raise. -/
def require (test : Bool) (k : FatalKind) : Except FatalKind Unit :=
  if test then .ok () else .error k

/-- The outcome of a handler that ran in `s` (R83): the state it made, or, where it raised a fatal
error, `s` itself with the error taken, so that a faulting instruction writes nothing (R147). -/
def complete (s : State) (r : Except FatalKind State) : Host.Outcome State Fault Refusal :=
  match r with
  | .ok t => .next t
  | .error k => .next (s.raise k s.instrAddr)

/-- The part of a step before the handler (spec/40_decode_resolve_dispatch.md R80): range test of
the pc, fetch, advance of the pc, decode. It gives the instruction and the state its handler runs
in, or the state the step ends in without one: a pc out of range raises `SegText` before the advance
(spec/60_exceptions.md R142), a word that is no instruction raises `Illegal` after it (R79). -/
def State.fetch (s : State) : Except State (Instr × State) :=
  if s.validText s.pc then
    match decode (s.textAt s.pc) with
    | .ok i => .ok (i, s.advance)
    | .error _ => .error (s.advance.raise .illegal s.pc)
  else .error (s.raise .segText s.pc)

/-! ### Numbers of the enumerations -/

/-- The 2-bit number of a condition code (spec/10_state.md R16). No rule depends on it. -/
def CC.code : CC → BitVec 2
  | .unknown => 0
  | .zero => 1
  | .positive => 2
  | .negative => 3

/-- The number of a fatal kind (spec/60_exceptions.md R140). No rule depends on it. -/
def FatalKind.code : FatalKind → Nat
  | .unknown => 1
  | .illegal => 2
  | .condition => 3
  | .immediate => 4
  | .segText => 5
  | .segData => 6
  | .segStack => 7

/-- The number of a warning kind (R149). No rule depends on it. -/
def WarningKind.code : WarningKind → Nat
  | .halt => 1
  | .pushStatic => 2

/-- The number a status port would show: 0 for "no error" (R140). -/
def Run.errorCode : Run → Nat
  | .running => 0
  | .halted => 0
  | .faulted k _ => k.code

/-! ### Reset by a load operation -/

/-- The bounds on the three sizes (spec/00_scope.md R6). -/
def sizesOk (textsize datasize dataend : Nat) : Bool :=
  decide (textsize ≤ Config.sizeMax) && decide (1 ≤ datasize) &&
    decide (datasize ≤ Config.sizeMax) && decide (dataend ≤ datasize)

/-- The state a load operation constructs from the sizes and the two complete images
(spec/10_state.md R24; spec/70_reset_and_hazards.md R170, R171). A machine outside the bounds of R6,
or with an image of another length than its size, is not constructed. -/
def State.load (textsize datasize dataend : Nat) (text data : List Word) : Option State :=
  if sizesOk textsize datasize dataend && decide (text.length = textsize)
      && decide (data.length = datasize) then
    some
      { regs := (Vector.replicate 16 0).set 15 (BitVec.ofNat 32 (datasize - 1))
        pc := 0
        cc := .unknown
        text := Memory.ofWords 0 text
        data := Memory.ofWords 0 data
        textsize := textsize
        datasize := datasize
        dataend := dataend
        run := .running
        warnings := [] }
  else none

end Sys2Proof.Machine
end

