-- ==== Sys2Proof/Machine/Flags.lean ====
section
/-! DEFINITION. The one flag computation of the machine and the one reader of the flag. -/

namespace Sys2Proof.Machine

/-- `sign(v)` of spec/00_scope.md R8: never Unknown (spec/10_state.md R17). -/
def sign (v : Word) : CC :=
  if v.toInt < 0 then .negative else if v = 0 then .zero else .positive

/-- `should_jump(cc, c)` of spec/40_decode_resolve_dispatch.md R77, its table cell by cell: a
condition from 7 to 15 raises `Condition`, and so does EQ to LE while `cc` is Unknown; NC is exempt
from that (R78). -/
def shouldJump (cc : CC) (c : Cond) : Except FatalKind Bool :=
  match c, cc with
  | .reserved _, _ => .error .condition
  | .nc, _ => .ok true
  | _, .unknown => .error .condition
  | .eq, cc => .ok (cc == .zero)
  | .ne, cc => .ok (cc != .zero)
  | .gt, cc => .ok (cc == .positive)
  | .ge, cc => .ok (cc == .positive || cc == .zero)
  | .lt, cc => .ok (cc == .negative)
  | .le, cc => .ok (cc == .negative || cc == .zero)

/-- Write the result of a LOAD, ADD or SUB: the register, and `cc` from its sign (R17). -/
def State.writeBack (s : State) (r : Reg) (v : Word) : State := (s.setReg r v).setCc (sign v)

end Sys2Proof.Machine
end

