-- ==== Sys2Proof/Machine/Operands.lean ====
section
/-! DEFINITION. The operand forms of spec/30_encoding.md R53 and R54: the address resolver, the
operand fetch, and the address that STORE, BRANCH, CALL and POP require. -/

namespace Sys2Proof.Machine

/-- A literal: the 20-bit field sign-extended (R53). -/
def literal (v : BitVec 20) : Word := v.signExtend 32

/-- `resolve(x, f)` of spec/40_decode_resolve_dispatch.md R74, modulo 2^32 (R75): pure, without any
range test, on the registers as they are before the handler writes (R76). -/
def State.resolve (s : State) (ad : Addr) : Word :=
  match ad with
  | .abs a => a.setWidth 32
  | .idx r off => s.reg r + off.signExtend 32

/-- `operand(f, ea)` of spec/42_load_store.md R99: the literal, or the data word after its range
test. -/
def State.operand (s : State) (src : Operand) : Except FatalKind Word :=
  match src with
  | .imm v => .ok (literal v)
  | .mem ad => do
    require (s.validData (s.resolve ad)) .segData
    .ok (s.dataAt (s.resolve ad))

/-- The effective address of an instruction that forbids the literal form, which raises `Immediate`
(R54, R58). No range test: that is the caller's (R74). -/
def State.address (s : State) (o : Operand) : Except FatalKind Word :=
  match o with
  | .imm _ => .error .immediate
  | .mem ad => .ok (s.resolve ad)

end Sys2Proof.Machine
end

