-- ==== Sys2Proof/Machine/AddSub.lean ====
section
/-! DEFINITION. ADD and SUB (spec/43_add_sub.md), modulo 2^32 (R112). -/

namespace Sys2Proof.Machine

/-- ADD (R110). -/
def execAdd (r : Reg) (src : Operand) (s : State) : Host.Outcome State Fault Refusal :=
  complete s do
    let v ← s.operand src
    .ok (s.writeBack r (s.reg r + v))

/-- SUB (R111): the register is the minuend. -/
def execSub (r : Reg) (src : Operand) (s : State) : Host.Outcome State Fault Refusal :=
  complete s do
    let v ← s.operand src
    .ok (s.writeBack r (s.reg r - v))

end Sys2Proof.Machine
end

