-- ==== Sys2Proof/Machine/Control.lean ====
section
/-! DEFINITION. BRANCH, CALL and RET (spec/44_branch_call_ret.md). A target is not range-tested: the
next fetch tests it (R123). -/

namespace Sys2Proof.Machine

/-- BRANCH (R120): `Immediate` before `Condition`. -/
def execBranch (c : Cond) (target : Operand) (s : State) : Host.Outcome State Fault Refusal :=
  complete s do
    let ea ← s.address target
    let j ← shouldJump s.cc c
    .ok (if j then s.setPc ea else s)

/-- CALL (R121): `Immediate`, `Condition`, then `SegStack` if the call is taken. The word pushed is
the pc the handler sees, `a + 1`; the target is formed from the old registers. -/
def execCall (c : Cond) (target : Operand) (s : State) : Host.Outcome State Fault Refusal :=
  complete s do
    let ea ← s.address target
    let j ← shouldJump s.cc c
    require (!j || s.pushOk) .segStack
    .ok (if j then ((s.setData s.sp s.pc).setSp (s.sp - 1)).setPc ea else s)

/-- RET (R122). -/
def execRet (s : State) : Host.Outcome State Fault Refusal :=
  complete s do
    require s.popOk .segStack
    .ok ((s.setPc (s.dataAt (s.sp + 1))).setSp (s.sp + 1))

end Sys2Proof.Machine
end

