-- ==== Sys2Proof/Machine/LoadStore.lean ====
section
/-! DEFINITION. LOAD and STORE (spec/42_load_store.md). -/

namespace Sys2Proof.Machine

/-- LOAD (R100). -/
def execLoad (r : Reg) (src : Operand) (s : State) : Host.Outcome State Fault Refusal :=
  complete s do
    let v ← s.operand src
    .ok (s.writeBack r v)

/-- STORE (R101): `Immediate` before `SegData`. -/
def execStore (r : Reg) (dst : Operand) (s : State) : Host.Outcome State Fault Refusal :=
  complete s do
    let ea ← s.address dst
    require (s.validData ea) .segData
    .ok (s.setData ea (s.reg r))

end Sys2Proof.Machine
end

