-- ==== Sys2Proof/Machine/Stack.lean ====
section
/-! DEFINITION. PUSH and POP (spec/45_push_pop.md). -/

namespace Sys2Proof.Machine

/-- The warning of a completed PUSH: `PushStatic` where the new stack pointer is below `dataend`
(R134). -/
def State.warnStatic (s : State) : State :=
  if s.sp.toInt < s.dataend then s.warn .pushStatic s.instrAddr else s

/-- PUSH (R131): `SegStack` before `SegData`; the address is formed from the old `sp`. -/
def execPush (src : Operand) (s : State) : Host.Outcome State Fault Refusal :=
  complete s do
    require s.pushOk .segStack
    let v ← s.operand src
    .ok ((s.setData s.sp v).setSp (s.sp - 1)).warnStatic

/-- POP (R132): `Immediate`, `SegStack`, then `SegData`; the address is formed from the old `sp`,
and the read comes before the write (spec/20_memory.md R36). -/
def execPop (dst : Operand) (s : State) : Host.Outcome State Fault Refusal :=
  complete s do
    let ea ← s.address dst
    require s.popOk .segStack
    require (s.validData ea) .segData
    .ok ((s.setData ea (s.dataAt (s.sp + 1))).setSp (s.sp + 1))

end Sys2Proof.Machine
end

