-- ==== Sys2Proof/Machine/System.lean ====
section
/-! DEFINITION. ILLOP, NOP and HALT (spec/41_illop_nop_halt.md). A meaning runs inside the step: the
pc it sees is already `a + 1`. -/

namespace Sys2Proof.Machine

/-- ILLOP (R90): always the fatal error `Illegal`. -/
def execIllop (s : State) : Host.Outcome State Fault Refusal :=
  complete s (.error .illegal)

/-- NOP (R91): no effect beyond the step's advance of the pc. -/
def execNop (s : State) : Host.Outcome State Fault Refusal :=
  complete s (.ok s)

/-- HALT (R92): the warning `Halt`, and the run ends normally. -/
def execHalt (s : State) : Host.Outcome State Fault Refusal :=
  complete s (.ok ((s.warn .halt s.instrAddr).setRun .halted))

end Sys2Proof.Machine
end

