-- ==== Sys2Proof/Machine/Dispatch.lean ====
section
/-! DEFINITION. The dispatcher's table, one arm per opcode (spec/40_decode_resolve_dispatch.md R79). -/

namespace Sys2Proof.Machine

def exec (i : Instr) (s : State) : Host.Outcome State Fault Refusal :=
  match i with
  | .illop => Sys2Proof.Machine.execIllop s
  | .nop => Sys2Proof.Machine.execNop s
  | .load r src => Sys2Proof.Machine.execLoad r src s
  | .store r dst => Sys2Proof.Machine.execStore r dst s
  | .add r src => Sys2Proof.Machine.execAdd r src s
  | .sub r src => Sys2Proof.Machine.execSub r src s
  | .branch c target => Sys2Proof.Machine.execBranch c target s
  | .call c target => Sys2Proof.Machine.execCall c target s
  | .ret => Sys2Proof.Machine.execRet s
  | .push src => Sys2Proof.Machine.execPush src s
  | .pop dst => Sys2Proof.Machine.execPop dst s
  | .halt => Sys2Proof.Machine.execHalt s

end Sys2Proof.Machine
end

