-- ==== Sys2Proof/Machine/Step.lean ====
section
/-! DEFINITION. One step of the execution loop (spec/40_decode_resolve_dispatch.md R80), and the
placing of one instruction where the next step fetches it. -/

namespace Sys2Proof.Machine

/-- The step (R80): the fetch, then the handler of the instruction it gives. Where the fetch fails,
the step ends there. From a terminal state there is no step (R20, R148). -/
def step (s : State) : Host.Outcome State Fault Refusal :=
  match s.run with
  | .halted => .fault .stoppedHalted
  | .faulted k a => .fault (.stoppedFaulted k a)
  | .running =>
    match s.fetch with
    | .ok (i, t) => exec i t
    | .error t => .next t

/-- `s` with the instruction word in the low `nbits` bits of `w` loaded where the next step fetches:
at the pc, or at index 0 where the pc is no index a text segment can have. The text grows to hold it
and the machine runs (log entry 7). -/
def State.withFetchWord (s : State) (nbits w : Nat) : State :=
  let pc : Word := if s.pc.toNat < Config.sizeMax then s.pc else 0
  ((s.setPc pc).setRun .running).loadWord pc.toNat (BitVec.ofNat 32 (w % 2 ^ nbits))

end Sys2Proof.Machine
end

