-- ==== Sys2Proof/WellFormed.lean ====
section
/-! DEFINITION. The legal instructions: those that spec/30_encoding.md R54, R57 and R58 do not list
as illegal forms. An illegal form still decodes and still runs: it raises the fault R58 names. -/

namespace Sys2Proof

/-- The operand is an address, not a literal (R54). -/
def Operand.isAddress : Operand → Bool
  | .imm _ => false
  | .mem _ => true

/-- The condition is one of the seven that have a name (R57). -/
def Cond.isNamed : Cond → Bool
  | .nc | .eq | .ne | .gt | .ge | .lt | .le => true
  | .reserved _ => false

/-- The instruction is a legal form: no literal where the opcode forbids it (R55) and no condition
from 7 to 15 (R57). -/
def Instr.wf : Instr → Bool
  | .illop => true
  | .nop => true
  | .load _ _ => true
  | .store _ dst => dst.isAddress
  | .add _ _ => true
  | .sub _ _ => true
  | .branch c target => c.isNamed && target.isAddress
  | .call c target => c.isNamed && target.isAddress
  | .ret => true
  | .push _ => true
  | .pop dst => dst.isAddress
  | .halt => true

end Sys2Proof
end

