-- ==== Sys2Proof/Safety.lean ====
section
/-! DEFINITION. What the claims are about: the invariants of the machine and of its reports, and
which fatal errors an instruction can raise. -/

namespace Sys2Proof.Machine

/-- What every state of a run meets: the sizes are in the bounds of spec/00_scope.md R6, and both
memories keep their canonical form inside their segments (spec/10_state.md R18, R19). -/
abbrev State.Inv (s : State) : Prop :=
  sizesOk s.textsize s.datasize s.dataend = true ∧
  Memory.wf s.text = true ∧ Memory.below s.text s.textsize = true ∧
  Memory.wf s.data = true ∧ Memory.below s.data s.datasize = true

/-- The index is one of a text segment of that size: the address of an instruction that was
fetched. -/
def isTextIndex (textsize : Nat) (a : Int) : Bool :=
  decide (0 ≤ a) && decide (a < textsize)

/-- What the reports of a state say is so: every warning carries the address of an instruction that
was fetched (R149); no `Halt` warning stands in the log before the run has ended, and the last one
stands there once it has (R92); a fault record holds the address of an instruction, but for
`SegText` that of no instruction (spec/60_exceptions.md R144), and never the kind `Unknown` (R141). -/
def State.reportsOk (s : State) : Bool :=
  s.warnings.all (fun w => isTextIndex s.textsize w.addr) &&
  match s.run with
  | .running => s.warnings.all fun w => w.kind == .pushStatic
  | .halted =>
    (s.warnings.dropLast.all fun w => w.kind == .pushStatic) &&
      (s.warnings.getLast?.map (·.kind)) == some .halt
  | .faulted k a =>
    (s.warnings.all fun w => w.kind == .pushStatic) && k != .unknown &&
      (isTextIndex s.textsize a != (k == .segText))

/-- The run has ended in a fatal error (R148). -/
def State.isFaulted (s : State) : Bool :=
  match s.run with
  | .faulted _ _ => true
  | .running => false
  | .halted => false

/-- The table of spec/60_exceptions.md R143: the fatal errors a form of an instruction can raise
once it has been fetched. -/
def mayRaise (i : Instr) (k : FatalKind) : Bool :=
  match i with
  | .illop => k == .illegal
  | .nop => false
  | .load _ src => src.isAddress && k == .segData
  | .store _ dst => if dst.isAddress then k == .segData else k == .immediate
  | .add _ src => src.isAddress && k == .segData
  | .sub _ src => src.isAddress && k == .segData
  | .branch c target =>
    if target.isAddress then c != .nc && k == .condition else k == .immediate
  | .call c target =>
    if target.isAddress then (c != .nc && k == .condition) || k == .segStack else k == .immediate
  | .ret => k == .segStack
  | .push src => k == .segStack || (src.isAddress && k == .segData)
  | .pop dst => if dst.isAddress then k == .segStack || k == .segData else k == .immediate
  | .halt => false

end Sys2Proof.Machine
end

