-- ==== Sys2Proof/Certificates/Slice0/Obligations.lean ====
section
/-! DEFINITION. The statements for the provers: what the numbered rules of spec/ say an instruction
or the machine does. A meaning runs inside the step, so the pc it sees is `a + 1` and its own
address `a` is `pc - 1` (log entry 6). -/

open Sys2Proof Sys2Proof.Machine

/-- Decode and encode agree (R55, R59): no bit of an operand is dropped, for every instruction, the
illegal forms among them. -/
def Obligations.DecodeOfEncodeIsTheInstruction : Prop :=
  ∀ i : Instr, decode (encode i) = .ok i

/-- The other direction (R55, R59): the decoder keeps every bit the opcode uses and ignores every
other one. -/
def Obligations.EncodeOfDecodeClearsIgnoredBits : Prop :=
  ∀ (w : Word) (i : Instr), decode w = .ok i → encode i = w &&& usedBits w

/-- A sanity statement: words written out in the spec's worked examples. -/
def Obligations.WordsOfTheSpecDecode : Prop :=
  decode 0xFFFFB342 = .ok (.load 3 (.imm (-5))) ∧
  decode 0x00036583 = .ok (.store 5 (.mem (.idx 6 3))) ∧
  decode 0x00002084 = .ok (.add 0 (.mem (.idx 2 0))) ∧
  decode 0x00001145 = .ok (.sub 1 (.imm 1)) ∧
  decode 0x00006606 = .ok (.branch .le (.mem (.abs 6))) ∧
  decode 0x00004007 = .ok (.call .nc (.mem (.abs 4))) ∧
  decode 0x00005049 = .ok (.push (.imm 5)) ∧
  decode 0x0001F08A = .ok (.pop (.mem (.idx 15 1)))

/-- Validity is one comparison on `iw[5:0]` (R56, R58 (1)). That the decoder makes it, that it
refuses by the name `opcodeOutOfRange`, and that every other word is an instruction, is the model's
choice (log entry 15): the spec's decoder has no error condition (R52, R71), and its dispatcher
makes the test (R79). -/
def Obligations.ReservedOpcodesAreRefused : Prop :=
  ∀ w : Word,
    (decode w = .error (.opcodeOutOfRange (w.extractLsb' 0 6)) ↔ 12 ≤ w.toNat % 64) ∧
    ((∃ i, decode w = .ok i) ↔ w.toNat % 64 ≤ 11)

/-- R53: both signed fields end at bit 31 (the shifts are the spec's own derivation), the absolute
address is unsigned. -/
def Obligations.SignedFieldsAreArithmeticShifts : Prop :=
  ∀ w : Word,
    literal (decodeFields w).immVal = w.sshiftRight 12 ∧
    (decodeFields w).offset.signExtend 32 = w.sshiftRight 16 ∧
    (decodeFields w).absAddr.setWidth 32 = w >>> 12

/-- R53 and R74, on mathematical integers. -/
def Obligations.OperandValuesOfTheForms : Prop :=
  (∀ v : BitVec 20, (literal v).toInt = v.toInt) ∧
  (∀ (s : State) (a : BitVec 20), (s.resolve (.abs a)).toInt = a.toNat) ∧
  (∀ (s : State) (r : Reg) (off : BitVec 16),
    (s.resolve (.idx r off)).toInt = ((s.reg r).toInt + off.toInt).bmod (2 ^ 32))

/-- R75, which the spec derives from the bound of R6. -/
def Obligations.IndexedAddressIsValidWhenTheExactSumIs : Prop :=
  ∀ (s : State) (r : Reg) (off : BitVec 16),
    s.textsize ≤ Config.sizeMax → s.datasize ≤ Config.sizeMax →
    (s.validData (s.resolve (.idx r off)) = true ↔
      0 ≤ (s.reg r).toInt + off.toInt ∧ (s.reg r).toInt + off.toInt < s.datasize) ∧
    (s.validText (s.resolve (.idx r off)) = true ↔
      0 ≤ (s.reg r).toInt + off.toInt ∧ (s.reg r).toInt + off.toInt < s.textsize)

/-- R33, which the spec derives from the bound of R6. -/
def Obligations.SignedAndUnsignedRangeTestsAgree : Prop :=
  ∀ (s : State) (v : Word), s.textsize ≤ Config.sizeMax → s.datasize ≤ Config.sizeMax →
    (s.validData v = true ↔ v.toNat < s.datasize) ∧
    (s.validText v = true ↔ v.toNat < s.textsize)

/-- R99: the shared operand fetch of LOAD, ADD, SUB and PUSH. -/
def Obligations.OperandFetchReadsLiteralOrDataWord : Prop :=
  (∀ (s : State) (x : BitVec 20), s.operand (.imm x) = .ok (x.signExtend 32)) ∧
  (∀ (s : State) (ad : Addr), s.validData (s.resolve ad) = true →
    s.operand (.mem ad) = .ok (Memory.read s.data (s.resolve ad).toNat)) ∧
  (∀ (s : State) (ad : Addr), s.validData (s.resolve ad) = false →
    s.operand (.mem ad) = .error .segData)

/-- R113's ranges: the classification is exhaustive and exclusive; no handler sets Unknown (R17). -/
def Obligations.SignOfEveryWord : Prop :=
  ∀ v : Word,
    (sign v = .negative ↔ 0x80000000 ≤ v.toNat) ∧
    (sign v = .zero ↔ v.toNat = 0) ∧
    (sign v = .positive ↔ 1 ≤ v.toNat ∧ v.toNat ≤ 0x7FFFFFFF) ∧
    sign v ≠ .unknown

/-- R77, its pseudocode line by line on the 4-bit field. -/
def Obligations.ConditionTableOfTheEvaluator : Prop :=
  ∀ (cc : CC) (c : BitVec 4),
    shouldJump cc (condOfField c) =
      if 6 < c.toNat then .error .condition
      else if c.toNat = 0 then .ok true
      else if cc = .unknown then .error .condition
      else if c.toNat = 1 then .ok (decide (cc = .zero))
      else if c.toNat = 2 then .ok (decide (cc ≠ .zero))
      else if c.toNat = 3 then .ok (decide (cc = .positive))
      else if c.toNat = 4 then .ok (decide (cc = .positive ∨ cc = .zero))
      else if c.toNat = 5 then .ok (decide (cc = .negative))
      else .ok (decide (cc = .negative ∨ cc = .zero))

/-- R130: both stack tests on the signed reading, the wrapped values of `sp + 1` and `sp - 1` never
passing. -/
def Obligations.PopTestIsTheRangeOfTheStackPointer : Prop :=
  ∀ s : State, s.datasize ≤ Config.sizeMax →
    (s.popOk = true ↔ -1 ≤ s.sp.toInt ∧ s.sp.toInt ≤ (s.datasize : Int) - 2) ∧
    (s.pushOk = true → s.validData s.sp = true ∧ s.validData (s.sp - 1) = true ∧
      (s.sp - 1).toInt = s.sp.toInt - 1)

/-- R90. Inside the step the handler sees `pc = a + 1`. -/
def Obligations.IllopAndReservedWordsRaiseIllegal : Prop :=
  (∀ w : Word, w.extractLsb' 0 6 = 0 → decode w = .ok .illop) ∧
  (∀ s : State,
    exec .illop s = .next { s with run := .faulted .illegal (s.pc - 1).toInt }) ∧
  (∀ s : State, s.run = .running → s.validText s.pc = true →
    (s.textAt s.pc).toNat % 64 = 0 ∨ 12 ≤ (s.textAt s.pc).toNat % 64 →
    step s = .next { s with pc := s.pc + 1, run := .faulted .illegal s.pc.toInt })

/-- R91, the corner case of the last text index included. -/
def Obligations.NopOnlyAdvancesThePc : Prop :=
  (∀ w : Word, w.extractLsb' 0 6 = 1 → decode w = .ok .nop) ∧
  (∀ s : State, exec .nop s = .next s) ∧
  (∀ s : State, s.run = .running → s.validText s.pc = true →
    (s.textAt s.pc).extractLsb' 0 6 = 1 → step s = .next { s with pc := s.pc + 1 }) ∧
  (∀ s : State, s.run = .running → s.textsize ≤ Config.sizeMax → s.validText s.pc = true →
    s.pc.toInt + 1 = s.textsize → (s.textAt s.pc).extractLsb' 0 6 = 1 →
    step { s with pc := s.pc + 1 } =
      .next { s with pc := s.pc + 1, run := .faulted .segText s.textsize })

/-- R92; the pc after a HALT is a decision of the spec's own (D24). -/
def Obligations.HaltWarnsAndEndsTheRun : Prop :=
  (∀ w : Word, w.extractLsb' 0 6 = 11 → decode w = .ok .halt) ∧
  (∀ s : State, exec .halt s =
    .next { s with run := .halted, warnings := s.warnings ++ [⟨.halt, (s.pc - 1).toInt⟩] }) ∧
  (∀ s : State, s.run = .running → s.validText s.pc = true →
    (s.textAt s.pc).extractLsb' 0 6 = 11 →
    step s = .next { s with
      pc := s.pc + 1
      run := .halted
      warnings := s.warnings ++ [⟨.halt, s.pc.toInt⟩] })

/-- R100 (with the operand of R99). `r = 15` loads the stack pointer, untested. -/
def Obligations.LoadWritesRegisterAndSign : Prop :=
  (∀ w : Word, w.extractLsb' 0 6 = 2 → decode w =
    .ok (.load (regOfField (w.extractLsb' 8 4)) (operandOfFields (decodeFields w)))) ∧
  (∀ (r : Reg) (x : BitVec 20) (s : State), exec (.load r (.imm x)) s =
    .next { s with
      regs := s.regs.set r ((x.signExtend 32))
      cc := sign ((x.signExtend 32)) }) ∧
  (∀ (r : Reg) (ad : Addr) (s : State), s.validData (s.resolve ad) = true →
    exec (.load r (.mem ad)) s =
      .next { s with
        regs := s.regs.set r ((Memory.read s.data (s.resolve ad).toNat))
        cc := sign ((Memory.read s.data (s.resolve ad).toNat)) }) ∧
  (∀ (r : Reg) (ad : Addr) (s : State), s.validData (s.resolve ad) = false →
    exec (.load r (.mem ad)) s =
      .next { s with run := .faulted .segData (s.pc - 1).toInt })

/-- R101, its faults in the order it gives. -/
def Obligations.StoreWritesTheDataWord : Prop :=
  (∀ w : Word, w.extractLsb' 0 6 = 3 → decode w =
    .ok (.store (regOfField (w.extractLsb' 8 4)) (operandOfFields (decodeFields w)))) ∧
  (∀ (r : Reg) (x : BitVec 20) (s : State), exec (.store r (.imm x)) s =
    .next { s with run := .faulted .immediate (s.pc - 1).toInt }) ∧
  (∀ (r : Reg) (ad : Addr) (s : State), s.validData (s.resolve ad) = true →
    exec (.store r (.mem ad)) s =
      .next { s with data := Memory.write s.data (s.resolve ad).toNat (s.reg r) }) ∧
  (∀ (r : Reg) (ad : Addr) (s : State), s.validData (s.resolve ad) = false →
    exec (.store r (.mem ad)) s =
      .next { s with run := .faulted .segData (s.pc - 1).toInt })

/-- R110 (with the operand of R99); `+` on words is modulo 2^32 (R112). -/
def Obligations.AddWritesSumAndSign : Prop :=
  (∀ w : Word, w.extractLsb' 0 6 = 4 → decode w =
    .ok (.add (regOfField (w.extractLsb' 8 4)) (operandOfFields (decodeFields w)))) ∧
  (∀ (r : Reg) (x : BitVec 20) (s : State), exec (.add r (.imm x)) s =
    .next { s with
      regs := s.regs.set r (s.reg r + (x.signExtend 32))
      cc := sign (s.reg r + (x.signExtend 32)) }) ∧
  (∀ (r : Reg) (ad : Addr) (s : State), s.validData (s.resolve ad) = true →
    exec (.add r (.mem ad)) s =
      .next { s with
        regs := s.regs.set r (s.reg r + (Memory.read s.data (s.resolve ad).toNat))
        cc := sign (s.reg r + (Memory.read s.data (s.resolve ad).toNat)) }) ∧
  (∀ (r : Reg) (ad : Addr) (s : State), s.validData (s.resolve ad) = false →
    exec (.add r (.mem ad)) s =
      .next { s with run := .faulted .segData (s.pc - 1).toInt })

/-- R111 (with the operand of R99); `-` on words is modulo 2^32 (R112). -/
def Obligations.SubWritesDifferenceAndSign : Prop :=
  (∀ w : Word, w.extractLsb' 0 6 = 5 → decode w =
    .ok (.sub (regOfField (w.extractLsb' 8 4)) (operandOfFields (decodeFields w)))) ∧
  (∀ (r : Reg) (x : BitVec 20) (s : State), exec (.sub r (.imm x)) s =
    .next { s with
      regs := s.regs.set r (s.reg r - (x.signExtend 32))
      cc := sign (s.reg r - (x.signExtend 32)) }) ∧
  (∀ (r : Reg) (ad : Addr) (s : State), s.validData (s.resolve ad) = true →
    exec (.sub r (.mem ad)) s =
      .next { s with
        regs := s.regs.set r (s.reg r - (Memory.read s.data (s.resolve ad).toNat))
        cc := sign (s.reg r - (Memory.read s.data (s.resolve ad).toNat)) }) ∧
  (∀ (r : Reg) (ad : Addr) (s : State), s.validData (s.resolve ad) = false →
    exec (.sub r (.mem ad)) s =
      .next { s with run := .faulted .segData (s.pc - 1).toInt })

/-- R120, its faults in the order it gives. The last clause is two steps: a taken branch to an index
outside the text completes, and the next step raises `SegText` with the bad pc as its address. -/
def Obligations.BranchSetsPcWhenTheConditionHolds : Prop :=
  (∀ w : Word, w.extractLsb' 0 6 = 6 → decode w =
    .ok (.branch (condOfField (w.extractLsb' 8 4)) (operandOfFields (decodeFields w)))) ∧
  (∀ (c : Cond) (x : BitVec 20) (s : State), exec (.branch c (.imm x)) s =
    .next { s with run := .faulted .immediate (s.pc - 1).toInt }) ∧
  (∀ (c : Cond) (ad : Addr) (s : State), shouldJump s.cc c = .error .condition →
    exec (.branch c (.mem ad)) s =
      .next { s with run := .faulted .condition (s.pc - 1).toInt }) ∧
  (∀ (c : Cond) (ad : Addr) (s : State), shouldJump s.cc c = .ok true →
    exec (.branch c (.mem ad)) s = .next { s with pc := s.resolve ad }) ∧
  (∀ (c : Cond) (ad : Addr) (s : State), shouldJump s.cc c = .ok false →
    exec (.branch c (.mem ad)) s = .next s) ∧
  (∀ (c : Cond) (ad : Addr) (s : State), s.run = .running → s.validText s.pc = true →
    decode (Memory.read s.text s.pc.toNat) = .ok (.branch c (.mem ad)) →
    shouldJump s.cc c = .ok true → s.validText (s.resolve ad) = false →
    step s = .next { s with pc := s.resolve ad } ∧
    step { s with pc := s.resolve ad } =
      .next { s with
        pc := s.resolve ad
        run := .faulted .segText (s.resolve ad).toInt })

/-- R121; that a call not taken makes no stack test is a decision of the spec's own (D25). -/
def Obligations.CallPushesReturnAddressAndJumps : Prop :=
  (∀ w : Word, w.extractLsb' 0 6 = 7 → decode w =
    .ok (.call (condOfField (w.extractLsb' 8 4)) (operandOfFields (decodeFields w)))) ∧
  (∀ (c : Cond) (x : BitVec 20) (s : State), exec (.call c (.imm x)) s =
    .next { s with run := .faulted .immediate (s.pc - 1).toInt }) ∧
  (∀ (c : Cond) (ad : Addr) (s : State), shouldJump s.cc c = .error .condition →
    exec (.call c (.mem ad)) s =
      .next { s with run := .faulted .condition (s.pc - 1).toInt }) ∧
  (∀ (c : Cond) (ad : Addr) (s : State), shouldJump s.cc c = .ok false →
    exec (.call c (.mem ad)) s = .next s) ∧
  (∀ (c : Cond) (ad : Addr) (s : State), shouldJump s.cc c = .ok true →
    ¬ (1 ≤ s.sp.toInt ∧ s.sp.toInt ≤ (s.datasize : Int) - 1) →
    exec (.call c (.mem ad)) s =
      .next { s with run := .faulted .segStack (s.pc - 1).toInt }) ∧
  (∀ (c : Cond) (ad : Addr) (s : State), shouldJump s.cc c = .ok true →
    1 ≤ s.sp.toInt ∧ s.sp.toInt ≤ (s.datasize : Int) - 1 →
    exec (.call c (.mem ad)) s =
      .next { s with
        data := Memory.write s.data s.sp.toNat s.pc
        regs := s.regs.set spReg (s.sp - 1)
        pc := s.resolve ad })

/-- R122: RET reads no cc and erases nothing. -/
def Obligations.RetPopsThePc : Prop :=
  (∀ w : Word, w.extractLsb' 0 6 = 8 → decode w = .ok .ret) ∧
  (∀ s : State, s.validData (s.sp + 1) = true →
    exec .ret s =
      .next { s with
        pc := Memory.read s.data (s.sp + 1).toNat
        regs := s.regs.set spReg (s.sp + 1) }) ∧
  (∀ s : State, s.validData (s.sp + 1) = false →
    exec .ret s = .next { s with run := .faulted .segStack (s.pc - 1).toInt })

/-- R131, with the exact stack test of R130 (D13) and the warning's condition of R134. -/
def Obligations.PushWritesThenDecrements : Prop :=
  (∀ w : Word, w.extractLsb' 0 6 = 9 → decode w = .ok (.push (operandOfFields (decodeFields w)))) ∧
  (∀ (src : Operand) (s : State), ¬ (1 ≤ s.sp.toInt ∧ s.sp.toInt ≤ (s.datasize : Int) - 1) →
    exec (.push src) s = .next { s with run := .faulted .segStack (s.pc - 1).toInt }) ∧
  (∀ (ad : Addr) (s : State), 1 ≤ s.sp.toInt ∧ s.sp.toInt ≤ (s.datasize : Int) - 1 →
    s.validData (s.resolve ad) = false →
    exec (.push (.mem ad)) s = .next { s with run := .faulted .segData (s.pc - 1).toInt }) ∧
  (∀ (x : BitVec 20) (s : State), 1 ≤ s.sp.toInt ∧ s.sp.toInt ≤ (s.datasize : Int) - 1 →
    exec (.push (.imm x)) s =
      .next { s with
        data := Memory.write s.data s.sp.toNat (x.signExtend 32)
        regs := s.regs.set spReg (s.sp - 1)
        warnings :=
          if (s.sp - 1).toInt < s.dataend then
            s.warnings ++ [⟨.pushStatic, (s.pc - 1).toInt⟩]
          else s.warnings }) ∧
  (∀ (ad : Addr) (s : State), 1 ≤ s.sp.toInt ∧ s.sp.toInt ≤ (s.datasize : Int) - 1 →
    s.validData (s.resolve ad) = true →
    exec (.push (.mem ad)) s =
      .next { s with
        data := Memory.write s.data s.sp.toNat (Memory.read s.data (s.resolve ad).toNat)
        regs := s.regs.set spReg (s.sp - 1)
        warnings :=
          if (s.sp - 1).toInt < s.dataend then
            s.warnings ++ [⟨.pushStatic, (s.pc - 1).toInt⟩]
          else s.warnings })

/-- R132, its faults in the order it gives. -/
def Obligations.PopIncrementsThenWrites : Prop :=
  (∀ w : Word, w.extractLsb' 0 6 = 10 → decode w =
    .ok (.pop (operandOfFields (decodeFields w)))) ∧
  (∀ (x : BitVec 20) (s : State), exec (.pop (.imm x)) s =
    .next { s with run := .faulted .immediate (s.pc - 1).toInt }) ∧
  (∀ (ad : Addr) (s : State), s.validData (s.sp + 1) = false →
    exec (.pop (.mem ad)) s =
      .next { s with run := .faulted .segStack (s.pc - 1).toInt }) ∧
  (∀ (ad : Addr) (s : State), s.validData (s.sp + 1) = true →
    s.validData (s.resolve ad) = false →
    exec (.pop (.mem ad)) s =
      .next { s with run := .faulted .segData (s.pc - 1).toInt }) ∧
  (∀ (ad : Addr) (s : State), s.validData (s.sp + 1) = true →
    s.validData (s.resolve ad) = true →
    exec (.pop (.mem ad)) s =
      .next { s with
        data := Memory.write s.data (s.resolve ad).toNat (Memory.read s.data (s.sp + 1).toNat)
        regs := s.regs.set spReg (s.sp + 1) })

/-- R13, R17, R36: LOAD, ADD and SUB write no memory and no register but `r`. -/
def Obligations.LoadAddSubChangeOneRegisterAndCc : Prop :=
  ∀ (i : Instr) (r : Reg) (src : Operand) (s t : State),
    i = .load r src ∨ i = .add r src ∨ i = .sub r src → exec i s = .next t →
    (∀ q, q ≠ r → t.reg q = s.reg q) ∧ (∀ n, Memory.read t.data n = Memory.read s.data n) ∧
    t.text = s.text ∧ t.textsize = s.textsize ∧ t.datasize = s.datasize ∧
    t.dataend = s.dataend ∧ t.pc = s.pc ∧ t.warnings = s.warnings

/-- R101, R36. The address stored to is the one the meaning computes, in the state before. -/
def Obligations.StoreChangesOneDataWord : Prop :=
  ∀ (r : Reg) (dst : Operand) (s t : State), exec (.store r dst) s = .next t →
    (∀ q, t.reg q = s.reg q) ∧ t.cc = s.cc ∧ t.pc = s.pc ∧ t.text = s.text ∧
    t.textsize = s.textsize ∧ t.datasize = s.datasize ∧ t.dataend = s.dataend ∧
    t.warnings = s.warnings ∧
    (∀ ea, s.address dst = .ok ea →
      ∀ n, n ≠ ea.toNat → Memory.read t.data n = Memory.read s.data n) ∧
    (∀ k, s.address dst = .error k → ∀ n, Memory.read t.data n = Memory.read s.data n)

/-- R121, R131, R36. The slot is the word at the old `sp`. -/
def Obligations.PushAndCallChangeTheSlotAtSp : Prop :=
  ∀ (i : Instr) (s t : State),
    (∃ src, i = .push src) ∨ (∃ c target, i = .call c target) → exec i s = .next t →
    (∀ q, q ≠ spReg → t.reg q = s.reg q) ∧ t.cc = s.cc ∧ t.text = s.text ∧
    t.textsize = s.textsize ∧ t.datasize = s.datasize ∧ t.dataend = s.dataend ∧
    (∀ n, n ≠ s.sp.toNat → Memory.read t.data n = Memory.read s.data n) ∧
    (∀ src, i = .push src → t.pc = s.pc) ∧
    (∀ c target, i = .call c target → t.warnings = s.warnings)

/-- R132, R36. The destination is computed in the state before, old `sp` included. -/
def Obligations.PopChangesSpAndOneDataWord : Prop :=
  ∀ (dst : Operand) (s t : State), exec (.pop dst) s = .next t →
    (∀ q, q ≠ spReg → t.reg q = s.reg q) ∧ t.cc = s.cc ∧ t.pc = s.pc ∧ t.text = s.text ∧
    t.textsize = s.textsize ∧ t.datasize = s.datasize ∧ t.dataend = s.dataend ∧
    t.warnings = s.warnings ∧
    (∀ ea, s.address dst = .ok ea →
      ∀ n, n ≠ ea.toNat → Memory.read t.data n = Memory.read s.data n) ∧
    (∀ k, s.address dst = .error k → ∀ n, Memory.read t.data n = Memory.read s.data n)

/-- R36: these instructions write no memory; R92: HALT alone of them warns. -/
def Obligations.ControlAndSystemWriteNoData : Prop :=
  ∀ (i : Instr) (s t : State),
    i = .illop ∨ i = .nop ∨ i = .halt ∨ i = .ret ∨ (∃ c target, i = .branch c target) →
    exec i s = .next t →
    (∀ n, Memory.read t.data n = Memory.read s.data n) ∧ t.cc = s.cc ∧ t.text = s.text ∧
    t.textsize = s.textsize ∧ t.datasize = s.datasize ∧ t.dataend = s.dataend ∧
    (∀ q, q ≠ spReg ∨ i ≠ .ret → t.reg q = s.reg q) ∧
    (i = .illop ∨ i = .nop ∨ i = .halt → t.pc = s.pc) ∧
    (i ≠ .halt → t.warnings = s.warnings)

/-- R80; the advance before the handler is a decision of the spec's own (D3). The instruction need
not be well-formed. -/
def Obligations.StepRunsTheDecodedInstruction : Prop :=
  ∀ (s : State) (i : Instr), s.run = .running → s.validText s.pc = true →
    decode (Memory.read s.text s.pc.toNat) = .ok i →
    step s = exec i { s with pc := s.pc + 1 }

/-- R142. -/
def Obligations.PcOutsideTheTextRaisesSegText : Prop :=
  (∀ s : State, s.run = .running → s.validText s.pc = false →
    step s = .next { s with run := .faulted .segText s.pc.toInt }) ∧
  (∀ (i : Instr) (s t : State) (a : Int), s.run = .running → exec i s = .next t →
    t.run ≠ .faulted .segText a)

/-- R20, R148. That it stops by these names is the model's choice (log entry 8). -/
def Obligations.NoStepFromATerminalState : Prop :=
  (∀ s : State, s.run = .halted → step s = .fault .stoppedHalted) ∧
  (∀ (s : State) (k : FatalKind) (a : Int), s.run = .faulted k a →
    step s = .fault (.stoppedFaulted k a))

/-- R84: the step is total on `Running` states; R20: there is none from a terminal one. -/
def Obligations.ExactlyTheRunningStatesStep : Prop :=
  ∀ s : State, (∃ t, step s = .next t) ↔ s.run = .running

/-- R24. The sizes of the reset state are the model's choice (log entry 3). -/
def Obligations.ResetMeetsTheMachineInvariant : Prop :=
  State.reset.Inv

/-- R6, R18, R19, R25: no step writes outside a segment, and equal memories stay equal data. -/
def Obligations.EveryStepKeepsTheMachineInvariant : Prop :=
  ∀ s t : State, s.Inv → step s = .next t → t.Inv

/-- R24: `run = Running`; no step has emitted a warning. -/
def Obligations.ResetReportsNothing : Prop :=
  State.reset.reportsOk = true

/-- R92, R141, R144, R149, over all instructions. -/
def Obligations.EveryStepKeepsTheReportsTrue : Prop :=
  ∀ s t : State, s.reportsOk = true → step s = .next t → t.reportsOk = true

/-- R144, R146 and R147 for every instruction and every fault (R147 rests on the spec's decisions D6
and D11). -/
def Obligations.FatalErrorsArePrecise : Prop :=
  ∀ (s t : State) (k : FatalKind) (a : Int), s.run = .running → step s = .next t →
    t.run = .faulted k a →
    a = s.pc.toInt ∧ (k = .segText ↔ s.validText s.pc = false) ∧
    t = { s with
      pc := if k = .segText then s.pc else s.pc + 1
      run := .faulted k a }

/-- R143, exhaustively: anything not listed cannot happen. -/
def Obligations.OnlyTheListedFaultsAreRaised : Prop :=
  ∀ (i : Instr) (s t : State) (k : FatalKind) (a : Int), s.run = .running →
    exec i s = .next t → t.run = .faulted k a →
    mayRaise i k = true ∧ a = (s.pc - 1).toInt

/-- R58 (3), (4) and R78: the two faults of an encoding are those of the illegal forms alone. -/
def Obligations.LegalFormsRaiseNoEncodingFault : Prop :=
  ∀ (i : Instr) (s t : State) (k : FatalKind) (a : Int), i.wf = true → s.run = .running →
    exec i s = .next t → t.run = .faulted k a →
    k ≠ .immediate ∧ (k = .condition → s.cc = .unknown)

/-- R83, R84, R92. -/
def Obligations.OnlyHaltEndsARunNormally : Prop :=
  ∀ s t : State, s.run = .running → step s = .next t →
    (t.run = .halted ↔
      s.validText s.pc = true ∧ (s.textAt s.pc).extractLsb' 0 6 = 11)

/-- R17: the writers of `cc`. -/
def Obligations.OnlyLoadAddSubWriteCc : Prop :=
  ∀ s t : State, s.run = .running → step s = .next t →
    (t.cc = .unknown → s.cc = .unknown) ∧
    (t.cc ≠ s.cc → (s.textAt s.pc).extractLsb' 0 6 = 2 ∨
      (s.textAt s.pc).extractLsb' 0 6 = 4 ∨ (s.textAt s.pc).extractLsb' 0 6 = 5)

/-- R15, R123: the only instructions that set pc otherwise are BRANCH, CALL and RET. -/
def Obligations.OnlyJumpsMoveThePcElsewhere : Prop :=
  ∀ s t : State, s.run = .running → step s = .next t → t.pc ≠ s.pc + 1 →
    (s.validText s.pc = false ∧ t.pc = s.pc) ∨
    (s.validText s.pc = true ∧ t.run = .running ∧
      ((s.textAt s.pc).extractLsb' 0 6 = 6 ∨ (s.textAt s.pc).extractLsb' 0 6 = 7 ∨
        (s.textAt s.pc).extractLsb' 0 6 = 8))

/-- R42: nothing writes the text; R5: no instruction writes a size. -/
def Obligations.NoRunChangesTheText : Prop :=
  ∀ (n : Nat) (s t : State), Sys2Proof.core.run n s = .next t →
    t.text = s.text ∧ t.textsize = s.textsize ∧ t.datasize = s.datasize ∧
    t.dataend = s.dataend

/-- R149, R134. That warnings are kept in a log is the model's choice (log entry 5). -/
def Obligations.AtMostOneWarningPerStep : Prop :=
  ∀ s t : State, s.run = .running → step s = .next t →
    t.warnings = s.warnings ∨
    (t.warnings = s.warnings ++ [⟨.halt, s.pc.toInt⟩] ∧ t.run = .halted) ∨
    (t.warnings = s.warnings ++ [⟨.pushStatic, s.pc.toInt⟩] ∧ t.run = .running ∧
      (s.textAt s.pc).extractLsb' 0 6 = 9 ∧ t.sp.toInt < s.dataend)

/-- R149: a warning changes no state; R23: no instruction reads the log (log entry 5). -/
def Obligations.WarningsAreNeverRead : Prop :=
  ∀ (s t : State) (ws : List Warning), step s = .next t →
    ∃ new, t.warnings = s.warnings ++ new ∧
      step { s with warnings := ws } = .next { t with warnings := ws ++ new }

/-- R19: the only thing that reads `dataend` is the `PushStatic` warning of PUSH, so the warning
logs agree unless the word run has opcode 9; R39: it guards nothing. -/
def Obligations.DataendOnlyDecidesTheWarning : Prop :=
  ∀ (s t : State) (n : Nat), step s = .next t →
    ∃ u, step { s with dataend := n } = .next u ∧
      { u with dataend := t.dataend, warnings := t.warnings } = t ∧
      (u.warnings = t.warnings ∨
        (s.validText s.pc = true ∧ (s.textAt s.pc).extractLsb' 0 6 = 9))

/-- R17: BRANCH and CALL read `cc`; nothing else reads it. The new `cc` of an instruction that
writes it does not depend on the old one; every other instruction keeps it. -/
def Obligations.OnlyJumpsReadCc : Prop :=
  ∀ (i : Instr) (s t : State) (c : CC),
    (∀ b target, i ≠ .branch b target) → (∀ b target, i ≠ .call b target) →
    exec i s = .next t →
    ∃ u, exec i { s with cc := c } = .next u ∧ { u with cc := t.cc } = t ∧
      (u.cc = t.cc ∨ (t.cc = s.cc ∧ u.cc = c))

/-- R25 (2), R130. -/
def Obligations.StackOperationsLeaveSpInRange : Prop :=
  ∀ (i : Instr) (s t : State), s.datasize ≤ Config.sizeMax → s.run = .running →
    i = .ret ∨ (∃ src, i = .push src) ∨ (∃ dst, i = .pop dst) ∨
      (∃ c target, i = .call c target ∧ shouldJump s.cc c = .ok true) →
    exec i s = .next t → t.run = .running →
    0 ≤ t.sp.toInt ∧ t.sp.toInt < t.datasize

/-- R133: push and pop symmetry of CALL and RET, whatever ran in between. -/
def Obligations.RetReturnsBehindTheCall : Prop :=
  ∀ (c : Cond) (ad : Addr) (s t m : State), Memory.wf s.data = true →
    shouldJump s.cc c = .ok true → s.pushOk = true →
    exec (.call c (.mem ad)) s = .next t →
    m.sp = t.sp → m.datasize = t.datasize →
    Memory.read m.data s.sp.toNat = Memory.read t.data s.sp.toNat →
    exec .ret m = .next { m with pc := s.pc, regs := m.regs.set spReg s.sp }

/-- R133: push and pop symmetry of PUSH and POP, whatever ran in between. -/
def Obligations.PopReturnsThePushedWord : Prop :=
  ∀ (src : Operand) (v : Word) (ad : Addr) (s t m : State), Memory.wf s.data = true →
    s.pushOk = true → s.operand src = .ok v → exec (.push src) s = .next t →
    m.sp = t.sp → m.datasize = t.datasize →
    Memory.read m.data s.sp.toNat = Memory.read t.data s.sp.toNat →
    m.validData (m.resolve ad) = true →
    exec (.pop (.mem ad)) m =
      .next { m with
        data := Memory.write m.data (m.resolve ad).toNat v
        regs := m.regs.set spReg s.sp }

/-- R35, R40 (3): a read gives the latest write. -/
def Obligations.LoadReadsTheStoredWord : Prop :=
  ∀ (r q : Reg) (ad ad' : Addr) (s t : State), Memory.wf s.data = true →
    s.validData (s.resolve ad) = true → exec (.store r (.mem ad)) s = .next t →
    t.resolve ad' = s.resolve ad →
    exec (.load q (.mem ad')) t =
      .next { t with regs := t.regs.set q (s.reg r), cc := sign (s.reg r) }

/-- R24, R170, R171 (the complete image is a decision of the spec's own, D21; the refusal D19). -/
def Obligations.LoadOperationMakesTheResetState : Prop :=
  ∀ (textsize datasize dataend : Nat) (text data : List Word),
    text.length = textsize → data.length = datasize →
    (sizesOk textsize datasize dataend = true →
      ∃ s, State.load textsize datasize dataend text data = some s ∧
        (∀ r, r ≠ spReg → s.reg r = 0) ∧ s.sp.toInt = (datasize : Int) - 1 ∧ s.pc = 0 ∧
        s.cc = .unknown ∧ s.run = .running ∧ s.warnings = [] ∧
        s.textsize = textsize ∧ s.datasize = datasize ∧ s.dataend = dataend ∧
        (∀ (i : Nat) (w : Word), text[i]? = some w → Memory.read s.text i = w) ∧
        (∀ (i : Nat) (w : Word), data[i]? = some w → Memory.read s.data i = w) ∧ s.Inv) ∧
    (sizesOk textsize datasize dataend = false →
      State.load textsize datasize dataend text data = none)

/-- R24, for the sizes and images of log entry 3 (the model's choice: nothing is loaded). -/
def Obligations.ResetStateHasTheResetValues : Prop :=
  (∀ r, r ≠ spReg → State.reset.reg r = 0) ∧
  State.reset.sp.toInt = (State.reset.datasize : Int) - 1 ∧
  State.reset.pc = 0 ∧ State.reset.cc = .unknown ∧ State.reset.run = .running ∧
  State.reset.warnings = []

/-- R142 and R173 (4), for the model's reset state of log entry 3 (its empty text is the model's
choice). -/
def Obligations.FirstStepWithNoProgramRaisesSegText : Prop :=
  step State.reset = .next { State.reset with run := .faulted .segText 0 }

/-- R80 through the model's stand-in for a load (log entry 7). -/
def Obligations.AWordPlacedForFetchIsTheOneRun : Prop :=
  ∀ (s : State) (w : Nat) (i : Instr), Memory.wf s.text = true → w < 2 ^ 32 →
    decode (BitVec.ofNat 32 w) = .ok i →
    step (s.withFetchWord 32 w) =
      exec i { s.withFetchWord 32 w with pc := (s.withFetchWord 32 w).pc + 1 }
end

