-- ==== Sys2Proof/Laws/Codec.lean ====
section
/-! SUPPORT. The laws of the field layout (spec/30_encoding.md R51, R59): every field of an encoded
word is the field it was made from, and the fields tile the word. -/

namespace Sys2Proof

/-- Bit `i` of an encoded word is the bit of the field that holds it (R51). -/
theorem getLsbD_encodeFields (op : BitVec 6) (im ix : BitVec 1) (rc : BitVec 4)
    (pay : BitVec 20) (i : Nat) (hi : i < 32) :
    (encodeFields op im ix rc pay).getLsbD i =
      if i < 6 then op.getLsbD i
      else if i < 7 then im.getLsbD (i - 6)
      else if i < 8 then ix.getLsbD (i - 7)
      else if i < 12 then rc.getLsbD (i - 8)
      else pay.getLsbD (i - 12) := by
  simp only [encodeFields, BitVec.getLsbD_or, BitVec.getLsbD_shiftLeft, BitVec.getLsbD_setWidth,
    hi, decide_true, Bool.true_and]
  split
  · simp [show i < 7 by omega, show i < 8 by omega, show i < 12 by omega, *]
  · rw [BitVec.getLsbD_of_ge op i (by omega)]
    split
    · simp [show i < 8 by omega, show i < 12 by omega, show i - 6 < 32 by omega, *]
    · rw [BitVec.getLsbD_of_ge im (i - 6) (by omega)]
      split
      · simp [show i < 12 by omega, show i - 7 < 32 by omega, *]
      · rw [BitVec.getLsbD_of_ge ix (i - 7) (by omega)]
        split
        · simp [show i - 8 < 32 by omega, *]
        · rw [BitVec.getLsbD_of_ge rc (i - 8) (by omega)]
          simp [show i - 12 < 32 by omega, *]

theorem getLsbD_indexPayload (ri : BitVec 4) (off : BitVec 16) (i : Nat) (hi : i < 20) :
    (indexPayload ri off).getLsbD i =
      if i < 4 then ri.getLsbD i else off.getLsbD (i - 4) := by
  simp only [indexPayload, BitVec.getLsbD_or, BitVec.getLsbD_shiftLeft, BitVec.getLsbD_setWidth,
    hi, decide_true, Bool.true_and]
  split
  · simp [*]
  · rw [BitVec.getLsbD_of_ge ri i (by omega)]
    simp [show i - 4 < 20 by omega, *]

section
variable (op : BitVec 6) (im ix : BitVec 1) (rc : BitVec 4) (pay : BitVec 20)

@[simp] theorem decodeFields_encodeFields_opcode :
    (decodeFields (encodeFields op im ix rc pay)).opcode = op := by
  refine BitVec.eq_of_getLsbD_eq fun i hi => ?_
  simp only [decodeFields, BitVec.getLsbD_extractLsb', hi, decide_true, Bool.true_and]
  rw [getLsbD_encodeFields op im ix rc pay _ (by omega), if_pos (by omega), Nat.zero_add]

@[simp] theorem decodeFields_encodeFields_immediate :
    (decodeFields (encodeFields op im ix rc pay)).immediate = im := by
  refine BitVec.eq_of_getLsbD_eq fun i hi => ?_
  simp only [decodeFields, BitVec.getLsbD_extractLsb', hi, decide_true, Bool.true_and]
  rw [getLsbD_encodeFields op im ix rc pay _ (by omega), if_neg (by omega), if_pos (by omega),
    Nat.add_sub_cancel_left]

@[simp] theorem decodeFields_encodeFields_indexed :
    (decodeFields (encodeFields op im ix rc pay)).indexed = ix := by
  refine BitVec.eq_of_getLsbD_eq fun i hi => ?_
  simp only [decodeFields, BitVec.getLsbD_extractLsb', hi, decide_true, Bool.true_and]
  rw [getLsbD_encodeFields op im ix rc pay _ (by omega), if_neg (by omega), if_neg (by omega),
    if_pos (by omega), Nat.add_sub_cancel_left]

@[simp] theorem decodeFields_encodeFields_regOrCond :
    (decodeFields (encodeFields op im ix rc pay)).regOrCond = rc := by
  refine BitVec.eq_of_getLsbD_eq fun i hi => ?_
  simp only [decodeFields, BitVec.getLsbD_extractLsb', hi, decide_true, Bool.true_and]
  rw [getLsbD_encodeFields op im ix rc pay _ (by omega), if_neg (by omega), if_neg (by omega),
    if_neg (by omega), if_pos (by omega), Nat.add_sub_cancel_left]

@[simp] theorem decodeFields_encodeFields_absAddr :
    (decodeFields (encodeFields op im ix rc pay)).absAddr = pay := by
  refine BitVec.eq_of_getLsbD_eq fun i hi => ?_
  simp only [decodeFields, BitVec.getLsbD_extractLsb', hi, decide_true, Bool.true_and]
  rw [getLsbD_encodeFields op im ix rc pay _ (by omega), if_neg (by omega), if_neg (by omega),
    if_neg (by omega), if_neg (by omega), Nat.add_sub_cancel_left]

@[simp] theorem decodeFields_encodeFields_immVal :
    (decodeFields (encodeFields op im ix rc pay)).immVal = pay :=
  decodeFields_encodeFields_absAddr op im ix rc pay

end

/-- The index register of a word is the low 4 bits of its payload (R51). -/
theorem getLsbD_rindex (w : Word) (i : Nat) (hi : i < 4) :
    (decodeFields w).rindex.getLsbD i = (decodeFields w).absAddr.getLsbD i := by
  simp [decodeFields, hi, show i < 20 by omega]

/-- The offset of a word is the high 16 bits of its payload (R51). -/
theorem getLsbD_offset (w : Word) (i : Nat) (hi : i < 16) :
    (decodeFields w).offset.getLsbD i = (decodeFields w).absAddr.getLsbD (4 + i) := by
  simp [decodeFields, hi, show 4 + i < 20 by omega, ← Nat.add_assoc]

@[simp] theorem decodeFields_encodeFields_rindex (op : BitVec 6) (im ix : BitVec 1)
    (rc ri : BitVec 4) (off : BitVec 16) :
    (decodeFields (encodeFields op im ix rc (indexPayload ri off))).rindex = ri := by
  refine BitVec.eq_of_getLsbD_eq fun i hi => ?_
  rw [getLsbD_rindex _ i hi, decodeFields_encodeFields_absAddr,
    getLsbD_indexPayload ri off i (by omega), if_pos hi]

@[simp] theorem decodeFields_encodeFields_offset (op : BitVec 6) (im ix : BitVec 1)
    (rc ri : BitVec 4) (off : BitVec 16) :
    (decodeFields (encodeFields op im ix rc (indexPayload ri off))).offset = off := by
  refine BitVec.eq_of_getLsbD_eq fun i hi => ?_
  rw [getLsbD_offset _ i hi, decodeFields_encodeFields_absAddr,
    getLsbD_indexPayload ri off (4 + i) (by omega), if_neg (by omega), Nat.add_sub_cancel_left]

/-- The fields tile all 32 bits (R59): a word is the encoding of its own fields. -/
theorem encodeFields_decodeFields (w : Word) :
    encodeFields (decodeFields w).opcode (decodeFields w).immediate (decodeFields w).indexed
      (decodeFields w).regOrCond (decodeFields w).absAddr = w := by
  refine BitVec.eq_of_getLsbD_eq fun i hi => ?_
  rw [getLsbD_encodeFields _ _ _ _ _ i hi]
  simp only [decodeFields, BitVec.getLsbD_extractLsb']
  split
  · simp [*]
  · split
    · simp [show i - 6 < 1 by omega, show 6 + (i - 6) = i by omega]
    · split
      · simp [show i - 7 < 1 by omega, show 7 + (i - 7) = i by omega]
      · split
        · simp [show i - 8 < 4 by omega, show 8 + (i - 8) = i by omega]
        · simp [show i - 12 < 20 by omega, show 12 + (i - 12) = i by omega]

/-- The index view of the payload is the payload (R51). -/
theorem indexPayload_decodeFields (w : Word) :
    indexPayload (decodeFields w).rindex (decodeFields w).offset = (decodeFields w).absAddr := by
  refine BitVec.eq_of_getLsbD_eq fun i hi => ?_
  rw [getLsbD_indexPayload _ _ i hi]
  split
  · exact getLsbD_rindex w i ‹_›
  · rw [getLsbD_offset w (i - 4) (by omega), show 4 + (i - 4) = i by omega]

@[simp] theorem regOfField_fieldOfReg (r : Reg) : regOfField (fieldOfReg r) = r := rfl

@[simp] theorem fieldOfReg_regOfField (b : BitVec 4) : fieldOfReg (regOfField b) = b := rfl

theorem condOfField_fieldOfCond (c : Cond) : condOfField (fieldOfCond c) = c := by
  cases c with
  | reserved n => revert n; decide
  | nc | eq | ne | gt | ge | lt | le => decide

theorem fieldOfCond_condOfField (b : BitVec 4) : fieldOfCond (condOfField b) = b := by
  revert b; decide

/-- The decoder reads the operand back from the word made of it. -/
theorem operandOfFields_encodeOperand (op : BitVec 6) (rc : BitVec 4) (o : Operand) :
    operandOfFields (decodeFields (encodeOperand op rc o)) = o := by
  match o with
  | .imm v => simp [encodeOperand, operandOfFields]
  | .mem (.abs a) => simp [encodeOperand, operandOfFields, addrOfFields]
  | .mem (.idx r off) => simp [encodeOperand, operandOfFields, addrOfFields]

@[simp] theorem decodeFields_encodeOperand_opcode (op : BitVec 6) (rc : BitVec 4) (o : Operand) :
    (decodeFields (encodeOperand op rc o)).opcode = op := by
  match o with
  | .imm v => simp [encodeOperand]
  | .mem (.abs a) => simp [encodeOperand]
  | .mem (.idx r off) => simp [encodeOperand]

@[simp] theorem decodeFields_encodeOperand_regOrCond (op : BitVec 6) (rc : BitVec 4)
    (o : Operand) : (decodeFields (encodeOperand op rc o)).regOrCond = rc := by
  match o with
  | .imm v => simp [encodeOperand]
  | .mem (.abs a) => simp [encodeOperand]
  | .mem (.idx r off) => simp [encodeOperand]

end Sys2Proof
end

