-- ==== Sys2Proof/Laws/Memory.lean ====
section
/-! SUPPORT. The laws of the word memory: a read after a write, the canonical form and the bound on
the listed indices are kept by every operation, and equal readings mean equal data. -/

namespace Sys2Proof.Machine

@[simp] theorem Memory.read_nil (i : Nat) : Memory.read [] i = Config.unlistedWord := rfl

@[simp] theorem Memory.read_cell (k : Nat) (w : Word) (m : Memory) (i : Nat) :
    Memory.read ((k, w) :: m) i = if k = i then w else Memory.read m i := rfl

/-- Below its first possible index a canonical memory lists nothing. -/
theorem Memory.read_below_start (m : Memory) (lo i : Nat) (h : Memory.wfFrom lo m = true)
    (hi : i < lo) : Memory.read m i = Config.unlistedWord := by
  induction m generalizing lo with
  | nil => rfl
  | cons c rest ih =>
    obtain ⟨k, w⟩ := c
    simp only [Memory.wfFrom, Bool.and_eq_true, decide_eq_true_eq] at h
    rw [Memory.read_cell, if_neg (by omega)]
    exact ih (k + 1) h.2 (by omega)

/-- A canonical memory may start later. -/
theorem Memory.wfFrom_mono (m : Memory) (lo lo' : Nat) (hle : lo' ≤ lo)
    (h : Memory.wfFrom lo m = true) : Memory.wfFrom lo' m = true := by
  cases m with
  | nil => rfl
  | cons c rest =>
    obtain ⟨k, w⟩ := c
    simp only [Memory.wfFrom, Bool.and_eq_true, decide_eq_true_eq] at h ⊢
    exact ⟨⟨by omega, h.1.2⟩, h.2⟩

theorem Memory.wfFrom_cons (lo i : Nat) (v : Word) (m : Memory) (hlo : lo ≤ i)
    (h : Memory.wfFrom (i + 1) m = true) : Memory.wfFrom lo (Memory.cons i v m) = true := by
  unfold Memory.cons
  split
  · exact Memory.wfFrom_mono m (i + 1) lo (by omega) h
  · rename_i hv
    simp [Memory.wfFrom, hlo, h, hv]

/-- What a read finds after a cell is put in front of a memory that lists later indices only. -/
theorem Memory.read_cons (i j : Nat) (v : Word) (m : Memory)
    (h : Memory.wfFrom (i + 1) m = true) :
    Memory.read (Memory.cons i v m) j = if i = j then v else Memory.read m j := by
  unfold Memory.cons
  split
  · rename_i hv
    split
    · rename_i hij
      rw [hv, Memory.read_below_start m (i + 1) j h (by omega)]
    · rfl
  · rfl

/-- Every write keeps the canonical form. -/
theorem Memory.wfFrom_write (m : Memory) (lo i : Nat) (v : Word) (hlo : lo ≤ i)
    (h : Memory.wfFrom lo m = true) : Memory.wfFrom lo (Memory.write m i v) = true := by
  induction m generalizing lo with
  | nil => exact Memory.wfFrom_cons lo i v [] hlo rfl
  | cons c rest ih =>
    obtain ⟨k, w⟩ := c
    simp only [Memory.wfFrom, Bool.and_eq_true, decide_eq_true_eq] at h
    unfold Memory.write
    split
    · refine Memory.wfFrom_cons lo i v _ hlo ?_
      simp only [Memory.wfFrom, Bool.and_eq_true, decide_eq_true_eq]
      exact ⟨⟨by omega, h.1.2⟩, h.2⟩
    · split
      · rename_i hik
        subst hik
        exact Memory.wfFrom_cons lo i v _ hlo h.2
      · simp only [Memory.wfFrom, Bool.and_eq_true, decide_eq_true_eq]
        exact ⟨h.1, ih (k + 1) (by omega) h.2⟩

theorem Memory.wf_write (m : Memory) (i : Nat) (v : Word) (h : Memory.wf m = true) :
    Memory.wf (Memory.write m i v) = true :=
  Memory.wfFrom_write m 0 i v (Nat.zero_le i) h

theorem Memory.read_write_from (m : Memory) (lo i j : Nat) (v : Word)
    (h : Memory.wfFrom lo m = true) :
    Memory.read (Memory.write m i v) j = if i = j then v else Memory.read m j := by
  induction m generalizing lo with
  | nil => exact Memory.read_cons i j v [] rfl
  | cons c rest ih =>
    obtain ⟨k, w⟩ := c
    simp only [Memory.wfFrom, Bool.and_eq_true, decide_eq_true_eq] at h
    unfold Memory.write
    split
    · refine Memory.read_cons i j v _ ?_
      simp only [Memory.wfFrom, Bool.and_eq_true, decide_eq_true_eq]
      exact ⟨⟨by omega, h.1.2⟩, h.2⟩
    · split
      · rename_i hik
        subst hik
        rw [Memory.read_cons i j v rest h.2, Memory.read_cell]
        split <;> rfl
      · rename_i hik
        rw [Memory.read_cell, Memory.read_cell, ih (k + 1) h.2]
        split
        · rename_i hkj
          rw [if_neg (fun hij => hik (hij.trans hkj.symm))]
        · rfl

/-- A read after a write: the value at the index written, and every other word as before
(spec/20_memory.md R40 (3)). -/
theorem Memory.read_write (m : Memory) (i j : Nat) (v : Word) (h : Memory.wf m = true) :
    Memory.read (Memory.write m i v) j = if i = j then v else Memory.read m j :=
  Memory.read_write_from m 0 i j v h

theorem Memory.read_write_same (m : Memory) (i : Nat) (v : Word) (h : Memory.wf m = true) :
    Memory.read (Memory.write m i v) i = v := by
  simp [Memory.read_write m i i v h]

/-- A write leaves every other word alone, in any memory, canonical or not. -/
theorem Memory.read_write_other (m : Memory) (i j : Nat) (v : Word) (hij : j ≠ i) :
    Memory.read (Memory.write m i v) j = Memory.read m j := by
  have hcons (m' : Memory) : Memory.read (Memory.cons i v m') j = Memory.read m' j := by
    unfold Memory.cons
    split
    · rfl
    · rw [Memory.read_cell, if_neg (Ne.symm hij)]
  induction m with
  | nil => exact hcons []
  | cons c rest ih =>
    obtain ⟨k, w⟩ := c
    unfold Memory.write
    split
    · exact hcons _
    · split
      · rename_i hik
        rw [hcons, Memory.read_cell, if_neg (fun hkj => hij (hkj.symm.trans hik.symm))]
      · rw [Memory.read_cell, Memory.read_cell, ih]

/-- Writing an index below the bound keeps every listed index below it. -/
theorem Memory.below_write (m : Memory) (i n : Nat) (v : Word) (hi : i < n)
    (h : Memory.below m n = true) : Memory.below (Memory.write m i v) n = true := by
  have hcons (m' : Memory) (h' : Memory.below m' n = true) :
      Memory.below (Memory.cons i v m') n = true := by
    unfold Memory.cons
    split
    · exact h'
    · simpa [Memory.below, hi] using h'
  induction m with
  | nil => exact hcons [] rfl
  | cons c rest ih =>
    obtain ⟨k, w⟩ := c
    have hk : k < n ∧ Memory.below rest n = true := by simpa [Memory.below] using h
    unfold Memory.write
    split
    · exact hcons _ h
    · split
      · exact hcons _ hk.2
      · simpa [Memory.below, hk.1] using ih hk.2

/-- A memory stays inside a segment that grows. -/
theorem Memory.below_mono (m : Memory) (n n' : Nat) (hle : n ≤ n')
    (h : Memory.below m n = true) : Memory.below m n' = true := by
  simp only [Memory.below, List.all_eq_true, decide_eq_true_eq] at h ⊢
  intro c hc
  exact Nat.lt_of_lt_of_le (h c hc) hle

theorem Memory.wfFrom_ofWords (lo : Nat) (ws : List Word) :
    Memory.wfFrom lo (Memory.ofWords lo ws) = true := by
  induction ws generalizing lo with
  | nil => rfl
  | cons w rest ih => exact Memory.wfFrom_cons lo lo w _ (Nat.le_refl lo) (ih (lo + 1))

/-- A loaded image has the canonical form. -/
theorem Memory.wf_ofWords (ws : List Word) : Memory.wf (Memory.ofWords 0 ws) = true :=
  Memory.wfFrom_ofWords 0 ws

/-- A loaded image reads as the words it was made of. -/
theorem Memory.read_ofWords (lo : Nat) (ws : List Word) (i : Nat) :
    Memory.read (Memory.ofWords lo ws) (lo + i) = ws.getD i Config.unlistedWord := by
  induction ws generalizing lo i with
  | nil => rfl
  | cons w rest ih =>
    have hw := Memory.read_cons lo (lo + i) w (Memory.ofWords (lo + 1) rest)
      (Memory.wfFrom_ofWords (lo + 1) rest)
    unfold Memory.ofWords
    rw [hw]
    cases i with
    | zero => simp
    | succ n =>
      rw [if_neg (by omega), show lo + (n + 1) = lo + 1 + n by omega, ih (lo + 1) n]
      rfl

/-- A loaded image lists no index past its end. -/
theorem Memory.below_ofWords (lo : Nat) (ws : List Word) :
    Memory.below (Memory.ofWords lo ws) (lo + ws.length) = true := by
  induction ws generalizing lo with
  | nil => rfl
  | cons w rest ih =>
    have hrest := ih (lo + 1)
    rw [show lo + 1 + rest.length = lo + (w :: rest).length by simp; omega] at hrest
    unfold Memory.ofWords Memory.cons
    split
    · exact hrest
    · simpa [Memory.below] using hrest

/-- In the canonical form equal readings mean equal data. -/
theorem Memory.eq_of_read_eq (m m' : Memory) (lo : Nat) (h : Memory.wfFrom lo m = true)
    (h' : Memory.wfFrom lo m' = true) (he : ∀ i, Memory.read m i = Memory.read m' i) : m = m' := by
  induction m generalizing m' lo with
  | nil =>
    cases m' with
    | nil => rfl
    | cons c rest =>
      obtain ⟨k, w⟩ := c
      simp only [Memory.wfFrom, Bool.and_eq_true, decide_eq_true_eq] at h'
      exact absurd (he k).symm (by simpa using h'.1.2)
  | cons c rest ih =>
    obtain ⟨k, w⟩ := c
    simp only [Memory.wfFrom, Bool.and_eq_true, decide_eq_true_eq] at h
    cases m' with
    | nil => exact absurd (he k) (by simpa using h.1.2)
    | cons c' rest' =>
      obtain ⟨k', w'⟩ := c'
      simp only [Memory.wfFrom, Bool.and_eq_true, decide_eq_true_eq] at h'
      have hk : k = k' := by
        rcases Nat.lt_trichotomy k k' with hlt | heq | hgt
        · have := he k
          rw [Memory.read_cell, if_pos rfl, Memory.read_cell, if_neg (by omega),
            Memory.read_below_start rest' (k' + 1) k h'.2 (by omega)] at this
          exact absurd this h.1.2
        · exact heq
        · have := he k'
          rw [Memory.read_cell, if_neg (by omega), Memory.read_cell, if_pos rfl,
            Memory.read_below_start rest (k + 1) k' h.2 (by omega)] at this
          exact absurd this.symm h'.1.2
      subst hk
      have hw : w = w' := by simpa using he k
      subst hw
      refine congrArg _ (ih rest' (k + 1) h.2 h'.2 fun i => ?_)
      by_cases hki : k = i
      · subst hki
        rw [Memory.read_below_start rest (k + 1) k h.2 (by omega),
          Memory.read_below_start rest' (k + 1) k h'.2 (by omega)]
      · simpa [hki] using he i

/-- The reset memory has the canonical form. -/
theorem reset_memory_wf :
    Memory.wf State.reset.text = true ∧ Memory.wf State.reset.data = true := ⟨rfl, rfl⟩

end Sys2Proof.Machine
end

