-- ==== Sys2Proof/Laws/State.lean ====
section
/-! SUPPORT. The fields of a state after each update: one lemma per field per update, true by rfl, so
that no proof unfolds a record update; and what a register reads after a register write. -/

namespace Sys2Proof.Machine

variable (s : State)

/-! ### setReg -/

@[simp] theorem State.setReg_regs (r : Reg) (v : Word) : (s.setReg r v).regs = s.regs.set r v := rfl
@[simp] theorem State.setReg_pc (r : Reg) (v : Word) : (s.setReg r v).pc = s.pc := rfl
@[simp] theorem State.setReg_cc (r : Reg) (v : Word) : (s.setReg r v).cc = s.cc := rfl
@[simp] theorem State.setReg_text (r : Reg) (v : Word) : (s.setReg r v).text = s.text := rfl
@[simp] theorem State.setReg_data (r : Reg) (v : Word) : (s.setReg r v).data = s.data := rfl
@[simp] theorem State.setReg_textsize (r : Reg) (v : Word) :
    (s.setReg r v).textsize = s.textsize := rfl
@[simp] theorem State.setReg_datasize (r : Reg) (v : Word) :
    (s.setReg r v).datasize = s.datasize := rfl
@[simp] theorem State.setReg_dataend (r : Reg) (v : Word) :
    (s.setReg r v).dataend = s.dataend := rfl
@[simp] theorem State.setReg_run (r : Reg) (v : Word) : (s.setReg r v).run = s.run := rfl
@[simp] theorem State.setReg_warnings (r : Reg) (v : Word) :
    (s.setReg r v).warnings = s.warnings := rfl

/-! ### setSp -/

@[simp] theorem State.setSp_regs (v : Word) : (s.setSp v).regs = s.regs.set spReg v := rfl
@[simp] theorem State.setSp_pc (v : Word) : (s.setSp v).pc = s.pc := rfl
@[simp] theorem State.setSp_cc (v : Word) : (s.setSp v).cc = s.cc := rfl
@[simp] theorem State.setSp_text (v : Word) : (s.setSp v).text = s.text := rfl
@[simp] theorem State.setSp_data (v : Word) : (s.setSp v).data = s.data := rfl
@[simp] theorem State.setSp_textsize (v : Word) : (s.setSp v).textsize = s.textsize := rfl
@[simp] theorem State.setSp_datasize (v : Word) : (s.setSp v).datasize = s.datasize := rfl
@[simp] theorem State.setSp_dataend (v : Word) : (s.setSp v).dataend = s.dataend := rfl
@[simp] theorem State.setSp_run (v : Word) : (s.setSp v).run = s.run := rfl
@[simp] theorem State.setSp_warnings (v : Word) : (s.setSp v).warnings = s.warnings := rfl

/-! ### setPc -/

@[simp] theorem State.setPc_regs (v : Word) : (s.setPc v).regs = s.regs := rfl
@[simp] theorem State.setPc_pc (v : Word) : (s.setPc v).pc = v := rfl
@[simp] theorem State.setPc_cc (v : Word) : (s.setPc v).cc = s.cc := rfl
@[simp] theorem State.setPc_text (v : Word) : (s.setPc v).text = s.text := rfl
@[simp] theorem State.setPc_data (v : Word) : (s.setPc v).data = s.data := rfl
@[simp] theorem State.setPc_textsize (v : Word) : (s.setPc v).textsize = s.textsize := rfl
@[simp] theorem State.setPc_datasize (v : Word) : (s.setPc v).datasize = s.datasize := rfl
@[simp] theorem State.setPc_dataend (v : Word) : (s.setPc v).dataend = s.dataend := rfl
@[simp] theorem State.setPc_run (v : Word) : (s.setPc v).run = s.run := rfl
@[simp] theorem State.setPc_warnings (v : Word) : (s.setPc v).warnings = s.warnings := rfl

/-! ### setCc -/

@[simp] theorem State.setCc_regs (c : CC) : (s.setCc c).regs = s.regs := rfl
@[simp] theorem State.setCc_pc (c : CC) : (s.setCc c).pc = s.pc := rfl
@[simp] theorem State.setCc_cc (c : CC) : (s.setCc c).cc = c := rfl
@[simp] theorem State.setCc_text (c : CC) : (s.setCc c).text = s.text := rfl
@[simp] theorem State.setCc_data (c : CC) : (s.setCc c).data = s.data := rfl
@[simp] theorem State.setCc_textsize (c : CC) : (s.setCc c).textsize = s.textsize := rfl
@[simp] theorem State.setCc_datasize (c : CC) : (s.setCc c).datasize = s.datasize := rfl
@[simp] theorem State.setCc_dataend (c : CC) : (s.setCc c).dataend = s.dataend := rfl
@[simp] theorem State.setCc_run (c : CC) : (s.setCc c).run = s.run := rfl
@[simp] theorem State.setCc_warnings (c : CC) : (s.setCc c).warnings = s.warnings := rfl

/-! ### setRun -/

@[simp] theorem State.setRun_regs (r : Run) : (s.setRun r).regs = s.regs := rfl
@[simp] theorem State.setRun_pc (r : Run) : (s.setRun r).pc = s.pc := rfl
@[simp] theorem State.setRun_cc (r : Run) : (s.setRun r).cc = s.cc := rfl
@[simp] theorem State.setRun_text (r : Run) : (s.setRun r).text = s.text := rfl
@[simp] theorem State.setRun_data (r : Run) : (s.setRun r).data = s.data := rfl
@[simp] theorem State.setRun_textsize (r : Run) : (s.setRun r).textsize = s.textsize := rfl
@[simp] theorem State.setRun_datasize (r : Run) : (s.setRun r).datasize = s.datasize := rfl
@[simp] theorem State.setRun_dataend (r : Run) : (s.setRun r).dataend = s.dataend := rfl
@[simp] theorem State.setRun_run (r : Run) : (s.setRun r).run = r := rfl
@[simp] theorem State.setRun_warnings (r : Run) : (s.setRun r).warnings = s.warnings := rfl

/-! ### setData -/

@[simp] theorem State.setData_regs (a v : Word) : (s.setData a v).regs = s.regs := rfl
@[simp] theorem State.setData_pc (a v : Word) : (s.setData a v).pc = s.pc := rfl
@[simp] theorem State.setData_cc (a v : Word) : (s.setData a v).cc = s.cc := rfl
@[simp] theorem State.setData_text (a v : Word) : (s.setData a v).text = s.text := rfl
@[simp] theorem State.setData_data (a v : Word) :
    (s.setData a v).data = Memory.write s.data a.toNat v := rfl
@[simp] theorem State.setData_textsize (a v : Word) : (s.setData a v).textsize = s.textsize := rfl
@[simp] theorem State.setData_datasize (a v : Word) : (s.setData a v).datasize = s.datasize := rfl
@[simp] theorem State.setData_dataend (a v : Word) : (s.setData a v).dataend = s.dataend := rfl
@[simp] theorem State.setData_run (a v : Word) : (s.setData a v).run = s.run := rfl
@[simp] theorem State.setData_warnings (a v : Word) : (s.setData a v).warnings = s.warnings := rfl

/-! ### loadWord -/

@[simp] theorem State.loadWord_regs (i : Nat) (w : Word) : (s.loadWord i w).regs = s.regs := rfl
@[simp] theorem State.loadWord_pc (i : Nat) (w : Word) : (s.loadWord i w).pc = s.pc := rfl
@[simp] theorem State.loadWord_cc (i : Nat) (w : Word) : (s.loadWord i w).cc = s.cc := rfl
@[simp] theorem State.loadWord_text (i : Nat) (w : Word) :
    (s.loadWord i w).text = Memory.write s.text i w := rfl
@[simp] theorem State.loadWord_data (i : Nat) (w : Word) : (s.loadWord i w).data = s.data := rfl
@[simp] theorem State.loadWord_textsize (i : Nat) (w : Word) :
    (s.loadWord i w).textsize = max s.textsize (i + 1) := rfl
@[simp] theorem State.loadWord_datasize (i : Nat) (w : Word) :
    (s.loadWord i w).datasize = s.datasize := rfl
@[simp] theorem State.loadWord_dataend (i : Nat) (w : Word) :
    (s.loadWord i w).dataend = s.dataend := rfl
@[simp] theorem State.loadWord_run (i : Nat) (w : Word) : (s.loadWord i w).run = s.run := rfl
@[simp] theorem State.loadWord_warnings (i : Nat) (w : Word) :
    (s.loadWord i w).warnings = s.warnings := rfl

/-! ### advance -/

@[simp] theorem State.advance_regs : s.advance.regs = s.regs := rfl
@[simp] theorem State.advance_pc : s.advance.pc = s.pc + 1 := rfl
@[simp] theorem State.advance_cc : s.advance.cc = s.cc := rfl
@[simp] theorem State.advance_text : s.advance.text = s.text := rfl
@[simp] theorem State.advance_data : s.advance.data = s.data := rfl
@[simp] theorem State.advance_textsize : s.advance.textsize = s.textsize := rfl
@[simp] theorem State.advance_datasize : s.advance.datasize = s.datasize := rfl
@[simp] theorem State.advance_dataend : s.advance.dataend = s.dataend := rfl
@[simp] theorem State.advance_run : s.advance.run = s.run := rfl
@[simp] theorem State.advance_warnings : s.advance.warnings = s.warnings := rfl

/-! ### raise -/

@[simp] theorem State.raise_regs (k : FatalKind) (a : Word) : (s.raise k a).regs = s.regs := rfl
@[simp] theorem State.raise_pc (k : FatalKind) (a : Word) : (s.raise k a).pc = s.pc := rfl
@[simp] theorem State.raise_cc (k : FatalKind) (a : Word) : (s.raise k a).cc = s.cc := rfl
@[simp] theorem State.raise_text (k : FatalKind) (a : Word) : (s.raise k a).text = s.text := rfl
@[simp] theorem State.raise_data (k : FatalKind) (a : Word) : (s.raise k a).data = s.data := rfl
@[simp] theorem State.raise_textsize (k : FatalKind) (a : Word) :
    (s.raise k a).textsize = s.textsize := rfl
@[simp] theorem State.raise_datasize (k : FatalKind) (a : Word) :
    (s.raise k a).datasize = s.datasize := rfl
@[simp] theorem State.raise_dataend (k : FatalKind) (a : Word) :
    (s.raise k a).dataend = s.dataend := rfl
@[simp] theorem State.raise_run (k : FatalKind) (a : Word) :
    (s.raise k a).run = .faulted k a.toInt := rfl
@[simp] theorem State.raise_warnings (k : FatalKind) (a : Word) :
    (s.raise k a).warnings = s.warnings := rfl

/-! ### warn -/

@[simp] theorem State.warn_regs (k : WarningKind) (a : Word) : (s.warn k a).regs = s.regs := rfl
@[simp] theorem State.warn_pc (k : WarningKind) (a : Word) : (s.warn k a).pc = s.pc := rfl
@[simp] theorem State.warn_cc (k : WarningKind) (a : Word) : (s.warn k a).cc = s.cc := rfl
@[simp] theorem State.warn_text (k : WarningKind) (a : Word) : (s.warn k a).text = s.text := rfl
@[simp] theorem State.warn_data (k : WarningKind) (a : Word) : (s.warn k a).data = s.data := rfl
@[simp] theorem State.warn_textsize (k : WarningKind) (a : Word) :
    (s.warn k a).textsize = s.textsize := rfl
@[simp] theorem State.warn_datasize (k : WarningKind) (a : Word) :
    (s.warn k a).datasize = s.datasize := rfl
@[simp] theorem State.warn_dataend (k : WarningKind) (a : Word) :
    (s.warn k a).dataend = s.dataend := rfl
@[simp] theorem State.warn_run (k : WarningKind) (a : Word) : (s.warn k a).run = s.run := rfl
@[simp] theorem State.warn_warnings (k : WarningKind) (a : Word) :
    (s.warn k a).warnings = s.warnings ++ [⟨k, a.toInt⟩] := rfl

/-! ### writeBack -/

@[simp] theorem State.writeBack_regs (r : Reg) (v : Word) :
    (s.writeBack r v).regs = s.regs.set r v := rfl
@[simp] theorem State.writeBack_pc (r : Reg) (v : Word) : (s.writeBack r v).pc = s.pc := rfl
@[simp] theorem State.writeBack_cc (r : Reg) (v : Word) : (s.writeBack r v).cc = sign v := rfl
@[simp] theorem State.writeBack_text (r : Reg) (v : Word) : (s.writeBack r v).text = s.text := rfl
@[simp] theorem State.writeBack_data (r : Reg) (v : Word) : (s.writeBack r v).data = s.data := rfl
@[simp] theorem State.writeBack_textsize (r : Reg) (v : Word) :
    (s.writeBack r v).textsize = s.textsize := rfl
@[simp] theorem State.writeBack_datasize (r : Reg) (v : Word) :
    (s.writeBack r v).datasize = s.datasize := rfl
@[simp] theorem State.writeBack_dataend (r : Reg) (v : Word) :
    (s.writeBack r v).dataend = s.dataend := rfl
@[simp] theorem State.writeBack_run (r : Reg) (v : Word) : (s.writeBack r v).run = s.run := rfl
@[simp] theorem State.writeBack_warnings (r : Reg) (v : Word) :
    (s.writeBack r v).warnings = s.warnings := rfl

/-! ### Reading a register -/

theorem State.reg_setReg (r q : Reg) (v : Word) :
    (s.setReg r v).reg q = if q = r then v else s.reg q := by
  unfold State.reg
  simp only [State.setReg_regs, Fin.getElem_fin, Vector.getElem_set]
  by_cases h : q = r
  · simp [h]
  · rw [if_neg (fun e => h (Fin.ext e.symm)), if_neg h]

@[simp] theorem State.reg_setReg_same (r : Reg) (v : Word) : (s.setReg r v).reg r = v := by
  simp [State.reg_setReg]

theorem State.reg_setReg_other (r q : Reg) (v : Word) (h : q ≠ r) :
    (s.setReg r v).reg q = s.reg q := by
  simp [State.reg_setReg, h]

@[simp] theorem State.sp_setSp (v : Word) : (s.setSp v).sp = v := State.reg_setReg_same s spReg v

theorem State.reg_setSp_other (q : Reg) (v : Word) (h : q ≠ spReg) :
    (s.setSp v).reg q = s.reg q := State.reg_setReg_other s spReg q v h

/-! ### The registers after an update of another component -/

@[simp] theorem State.reg_setPc (v : Word) (q : Reg) : (s.setPc v).reg q = s.reg q := rfl
@[simp] theorem State.sp_setPc (v : Word) : (s.setPc v).sp = s.sp := rfl
@[simp] theorem State.reg_setCc (c : CC) (q : Reg) : (s.setCc c).reg q = s.reg q := rfl
@[simp] theorem State.sp_setCc (c : CC) : (s.setCc c).sp = s.sp := rfl
@[simp] theorem State.reg_setRun (r : Run) (q : Reg) : (s.setRun r).reg q = s.reg q := rfl
@[simp] theorem State.sp_setRun (r : Run) : (s.setRun r).sp = s.sp := rfl
@[simp] theorem State.reg_setData (a v : Word) (q : Reg) : (s.setData a v).reg q = s.reg q := rfl
@[simp] theorem State.sp_setData (a v : Word) : (s.setData a v).sp = s.sp := rfl
@[simp] theorem State.reg_loadWord (i : Nat) (w : Word) (q : Reg) : (s.loadWord i w).reg q = s.reg q := rfl
@[simp] theorem State.sp_loadWord (i : Nat) (w : Word) : (s.loadWord i w).sp = s.sp := rfl
@[simp] theorem State.reg_advance (q : Reg) : s.advance.reg q = s.reg q := rfl
@[simp] theorem State.sp_advance : s.advance.sp = s.sp := rfl
@[simp] theorem State.reg_raise (k : FatalKind) (a : Word) (q : Reg) : (s.raise k a).reg q = s.reg q := rfl
@[simp] theorem State.sp_raise (k : FatalKind) (a : Word) : (s.raise k a).sp = s.sp := rfl
@[simp] theorem State.reg_warn (k : WarningKind) (a : Word) (q : Reg) : (s.warn k a).reg q = s.reg q := rfl
@[simp] theorem State.sp_warn (k : WarningKind) (a : Word) : (s.warn k a).sp = s.sp := rfl

/-- Two states with one register file read alike: an update that leaves `regs` as it was leaves
every register, and `sp` with them. -/
theorem State.reg_congr (t : State) (h : t.regs = s.regs) (q : Reg) : t.reg q = s.reg q := by
  unfold State.reg; rw [h]

theorem State.sp_congr (t : State) (h : t.regs = s.regs) : t.sp = s.sp :=
  State.reg_congr s t h spReg

end Sys2Proof.Machine
end

