-- ==== Sys2Proof/Laws/Ops.lean ====
section
/-! SUPPORT. What each shared operation can do, said once: the tests, the completion of a handler,
the operand forms, the condition evaluator, the flag, the load. -/

namespace Sys2Proof.Machine

/-! ### Tests and completion -/

@[simp] theorem require_eq_ok (b : Bool) (k : FatalKind) (u : Unit) :
    require b k = .ok u ↔ b = true := by
  cases b <;> simp [require]

@[simp] theorem require_eq_error (b : Bool) (k k' : FatalKind) :
    require b k = .error k' ↔ b = false ∧ k = k' := by
  cases b <;> simp [require]

@[simp] theorem require_true (k : FatalKind) : require true k = .ok () := rfl

@[simp] theorem require_false (k : FatalKind) : require false k = .error k := rfl

/-- A part of a handler that passes hands its value on. -/
@[simp] theorem except_ok_bind {α β : Type} (a : α) (f : α → Except FatalKind β) :
    ((Except.ok a : Except FatalKind α) >>= f) = f a := rfl

/-- A part of a handler that raises ends the handler (spec/60_exceptions.md R146). -/
@[simp] theorem except_error_bind {α β : Type} (k : FatalKind) (f : α → Except FatalKind β) :
    ((Except.error k : Except FatalKind α) >>= f) = .error k := rfl

/-- A sequence of parts completes exactly when each of them does. -/
theorem except_bind_eq_ok {α β : Type} (x : Except FatalKind α) (f : α → Except FatalKind β)
    (b : β) : (x >>= f) = .ok b ↔ ∃ a, x = .ok a ∧ f a = .ok b := by
  cases x with
  | ok a => simp
  | error k => simp

/-- A sequence of parts raises what the first part that raises does. -/
theorem except_bind_eq_error {α β : Type} (x : Except FatalKind α) (f : α → Except FatalKind β)
    (k : FatalKind) :
    (x >>= f) = .error k ↔ x = .error k ∨ ∃ a, x = .ok a ∧ f a = .error k := by
  cases x with
  | ok a => simp
  | error k' => simp

@[simp] theorem complete_ok (s t : State) : complete s (.ok t) = .next t := rfl

@[simp] theorem complete_error (s : State) (k : FatalKind) :
    complete s (.error k) = .next (s.raise k s.instrAddr) := rfl

/-- All a handler's completion can be: the state the handler made, or the old state with the fatal
error taken and nothing else changed (spec/60_exceptions.md R147). -/
theorem complete_eq_next (s t : State) (r : Except FatalKind State) :
    complete s r = .next t ↔
      r = .ok t ∨ ∃ k, r = .error k ∧ t = s.raise k s.instrAddr := by
  cases r with
  | ok u => simp
  | error k =>
    simp only [complete_error, Host.Outcome.next.injEq, reduceCtorEq, false_or, Except.error.injEq,
      exists_eq_left']
    exact eq_comm

/-- A handler always ends in a next state (spec/40_decode_resolve_dispatch.md R84). -/
theorem complete_total (s : State) (r : Except FatalKind State) : ∃ t, complete s r = .next t := by
  cases r with
  | ok u => exact ⟨u, rfl⟩
  | error k => exact ⟨_, rfl⟩

/-- The instruction address seen after the step's advance is the fetch address. -/
@[simp] theorem instrAddr_advance (s : State) : s.advance.instrAddr = s.pc := by
  simp [State.instrAddr]

/-! ### Range tests -/

theorem validData_iff (s : State) (v : Word) :
    s.validData v = true ↔ 0 ≤ v.toInt ∧ v.toInt < s.datasize := by
  simp [State.validData]

/-- The data range test reads `datasize` alone. -/
theorem validData_congr (s t : State) (h : t.datasize = s.datasize) (v : Word) :
    t.validData v = s.validData v := by
  unfold State.validData
  rw [h]

/-- The text range test reads `textsize` alone. -/
theorem validText_congr (s t : State) (h : t.textsize = s.textsize) (v : Word) :
    t.validText v = s.validText v := by
  unfold State.validText
  rw [h]

theorem validText_iff (s : State) (v : Word) :
    s.validText v = true ↔ 0 ≤ v.toInt ∧ v.toInt < s.textsize := by
  simp [State.validText]

/-- The index of a valid data address is below `datasize`. -/
theorem validData_toNat (s : State) (v : Word) (h : s.validData v = true) :
    v.toNat < s.datasize := by
  rw [validData_iff, BitVec.toInt_eq_toNat_cond] at h
  have hv := v.isLt
  split at h <;> omega

/-- The index of a valid text address is below `textsize`. -/
theorem validText_toNat (s : State) (v : Word) (h : s.validText v = true) :
    v.toNat < s.textsize := by
  rw [validText_iff, BitVec.toInt_eq_toNat_cond] at h
  have hv := v.isLt
  split at h <;> omega

theorem pushOk_iff (s : State) :
    s.pushOk = true ↔ 1 ≤ s.sp.toInt ∧ s.sp.toInt ≤ (s.datasize : Int) - 1 := by
  simp [State.pushOk]

/-- The stack tests read `sp` and `datasize` alone. -/
theorem pushOk_congr (s t : State) (hr : t.regs = s.regs) (hs : t.datasize = s.datasize) :
    t.pushOk = s.pushOk := by
  unfold State.pushOk
  rw [State.sp_congr s t hr, hs]

theorem popOk_congr (s t : State) (hr : t.regs = s.regs) (hs : t.datasize = s.datasize) :
    t.popOk = s.popOk := by
  unfold State.popOk
  rw [State.sp_congr s t hr, validData_congr s t hs]

/-- The slot a push writes is a data word. -/
theorem pushOk_validData (s : State) (h : s.pushOk = true) : s.validData s.sp = true := by
  rw [pushOk_iff] at h
  rw [validData_iff]
  omega

/-! ### Operands -/

/-- All an operand fetch can give (spec/42_load_store.md R99). -/
theorem operand_eq_ok (s : State) (src : Operand) (v : Word) :
    s.operand src = .ok v ↔
      (∃ x, src = .imm x ∧ v = literal x) ∨
      ∃ ad, src = .mem ad ∧ s.validData (s.resolve ad) = true ∧ v = s.dataAt (s.resolve ad) := by
  cases src with
  | imm x =>
    simp only [State.operand, Except.ok.injEq, Operand.imm.injEq, reduceCtorEq, false_and,
      exists_false, or_false, exists_eq_left']
    exact eq_comm
  | mem ad =>
    simp only [State.operand, except_bind_eq_ok, require_eq_ok, exists_const, Except.ok.injEq,
      reduceCtorEq, false_and, false_or, Operand.mem.injEq, exists_eq_left']
    exact and_congr_right fun _ => eq_comm

/-- An operand fetch raises `SegData` alone, and in a memory form alone. -/
theorem operand_eq_error (s : State) (src : Operand) (k : FatalKind) :
    s.operand src = .error k ↔
      ∃ ad, src = .mem ad ∧ s.validData (s.resolve ad) = false ∧ k = .segData := by
  cases src with
  | imm x => simp [State.operand]
  | mem ad =>
    simp only [State.operand, except_bind_eq_error, require_eq_error, reduceCtorEq, and_false,
      exists_false, or_false, Operand.mem.injEq, exists_eq_left']
    exact and_congr_right fun _ => eq_comm

/-- The resolver reads the registers alone (spec/40_decode_resolve_dispatch.md R76). -/
theorem resolve_congr (s t : State) (h : t.regs = s.regs) (ad : Addr) :
    t.resolve ad = s.resolve ad := by
  cases ad with
  | abs a => rfl
  | idx r off => exact congrArg (· + off.signExtend 32) (State.reg_congr s t h r)

/-- The operand fetch reads the registers, the data and `datasize` alone. -/
theorem operand_congr (s t : State) (hr : t.regs = s.regs) (hd : t.data = s.data)
    (hs : t.datasize = s.datasize) (src : Operand) : t.operand src = s.operand src := by
  cases src with
  | imm x => rfl
  | mem ad =>
    simp only [State.operand, resolve_congr s t hr, validData_congr s t hs, State.dataAt, hd]

theorem address_congr (s t : State) (h : t.regs = s.regs) (o : Operand) :
    t.address o = s.address o := by
  cases o with
  | imm v => rfl
  | mem ad => simp only [State.address, resolve_congr s t h]

theorem address_eq_ok (s : State) (o : Operand) (ea : Word) :
    s.address o = .ok ea ↔ ∃ ad, o = .mem ad ∧ ea = s.resolve ad := by
  cases o with
  | imm v => simp [State.address]
  | mem ad =>
    simp only [State.address, Except.ok.injEq, Operand.mem.injEq, exists_eq_left']
    exact eq_comm

/-- A required address raises `Immediate` alone, and in the literal form alone. -/
theorem address_eq_error (s : State) (o : Operand) (k : FatalKind) :
    s.address o = .error k ↔ (∃ v, o = .imm v) ∧ k = .immediate := by
  cases o with
  | imm v =>
    simp only [State.address, Except.error.injEq, Operand.imm.injEq, exists_eq', true_and]
    exact eq_comm
  | mem ad => simp [State.address]

/-! ### The flag and the condition -/

/-- The condition evaluator raises `Condition` alone, for a reserved condition, or for one of the
six that need a known `cc` (spec/40_decode_resolve_dispatch.md R78). -/
theorem shouldJump_eq_error (cc : CC) (c : Cond) (k : FatalKind) :
    shouldJump cc c = .error k ↔
      k = .condition ∧ (c.isNamed = false ∨ (c ≠ .nc ∧ cc = .unknown)) := by
  have hk : (FatalKind.condition = k) = (k = FatalKind.condition) := propext eq_comm
  cases c <;> cases cc <;> simp [shouldJump, Cond.isNamed, hk]

theorem sign_ne_unknown (v : Word) : sign v ≠ .unknown := by
  unfold sign
  split
  · decide
  · split <;> decide

theorem reg_writeBack (s : State) (r q : Reg) (v : Word) :
    (s.writeBack r v).reg q = if q = r then v else s.reg q := State.reg_setReg s r q v

/-! ### The warning of a PUSH -/

/-- All the warning of a PUSH can change is the warning log (spec/45_push_pop.md R134). -/
theorem warnStatic_cases (s : State) :
    (s.sp.toInt < s.dataend ∧ s.warnStatic = s.warn .pushStatic s.instrAddr) ∨
      (¬ s.sp.toInt < s.dataend ∧ s.warnStatic = s) := by
  unfold State.warnStatic
  split
  · exact .inl ⟨‹_›, rfl⟩
  · exact .inr ⟨‹_›, rfl⟩

/-! ### Reset by a load -/

/-- A load constructs a machine exactly when the sizes are in bounds and both images are complete. -/
theorem load_isSome (textsize datasize dataend : Nat) (text data : List Word) :
    (State.load textsize datasize dataend text data).isSome = true ↔
      sizesOk textsize datasize dataend = true ∧ text.length = textsize ∧
        data.length = datasize := by
  unfold State.load
  split
  · rename_i h
    simp only [Bool.and_eq_true, decide_eq_true_eq] at h
    simp [h]
  · rename_i h
    simp only [Bool.and_eq_true, decide_eq_true_eq] at h
    simp only [Option.isSome_none, Bool.false_eq_true, false_iff]
    exact fun hc => h ⟨⟨hc.1, hc.2.1⟩, hc.2.2⟩

theorem Memory.ofWords_replicate (lo n : Nat) :
    Memory.ofWords lo (List.replicate n Config.unlistedWord) = [] := by
  induction n generalizing lo with
  | zero => rfl
  | succ n ih => simp [List.replicate_succ, Memory.ofWords, Memory.cons, ih]

/-- Loading no instruction words and a data image of zeros lists no word. -/
theorem load_zeros (datasize dataend : Nat) (h : sizesOk 0 datasize dataend = true) :
    State.load 0 datasize dataend [] (List.replicate datasize Config.unlistedWord) =
      some
        { regs := (Vector.replicate 16 0).set 15 (BitVec.ofNat 32 (datasize - 1))
          pc := 0
          cc := .unknown
          text := []
          data := []
          textsize := 0
          datasize := datasize
          dataend := dataend
          run := .running
          warnings := [] } := by
  unfold State.load
  rw [Memory.ofWords_replicate, List.length_replicate, h]
  simp [Memory.ofWords]

/-- The model's reset state is the load of no program (log entry 3). -/
theorem load_reset :
    State.load Config.resetTextsize Config.resetDatasize Config.resetDataend []
      (List.replicate Config.resetDatasize Config.unlistedWord) = some State.reset :=
  load_zeros Config.resetDatasize Config.resetDataend (by decide)

end Sys2Proof.Machine
end

