-- ==== Sys2Proof/Laws/Exec.lean ====
section
/-! SUPPORT. What an instruction and a step can do, said once: the effect of an instruction that
completes, case by case, the fatal error of one that does not, and the three ways of a step. -/

namespace Sys2Proof.Machine

/-- The effect of an instruction that completes in `s`: its own effect, one case for each way it has
of completing, with all it tested before. -/
inductive Effect (s : State) : Instr → State → Prop
  | nop : Effect s .nop s
  | halt : Effect s .halt ((s.warn .halt s.instrAddr).setRun .halted)
  | load (r : Reg) (src : Operand) (v : Word) (hv : s.operand src = .ok v) :
      Effect s (.load r src) (s.writeBack r v)
  | store (r : Reg) (dst : Operand) (ea : Word) (ha : s.address dst = .ok ea)
      (hd : s.validData ea = true) : Effect s (.store r dst) (s.setData ea (s.reg r))
  | add (r : Reg) (src : Operand) (v : Word) (hv : s.operand src = .ok v) :
      Effect s (.add r src) (s.writeBack r (s.reg r + v))
  | sub (r : Reg) (src : Operand) (v : Word) (hv : s.operand src = .ok v) :
      Effect s (.sub r src) (s.writeBack r (s.reg r - v))
  | branchTaken (c : Cond) (target : Operand) (ea : Word) (ha : s.address target = .ok ea)
      (hj : shouldJump s.cc c = .ok true) : Effect s (.branch c target) (s.setPc ea)
  | branchNotTaken (c : Cond) (target : Operand) (ea : Word) (ha : s.address target = .ok ea)
      (hj : shouldJump s.cc c = .ok false) : Effect s (.branch c target) s
  | callTaken (c : Cond) (target : Operand) (ea : Word) (ha : s.address target = .ok ea)
      (hj : shouldJump s.cc c = .ok true) (hp : s.pushOk = true) :
      Effect s (.call c target) (((s.setData s.sp s.pc).setSp (s.sp - 1)).setPc ea)
  | callNotTaken (c : Cond) (target : Operand) (ea : Word) (ha : s.address target = .ok ea)
      (hj : shouldJump s.cc c = .ok false) : Effect s (.call c target) s
  | ret (hp : s.popOk = true) :
      Effect s .ret ((s.setPc (s.dataAt (s.sp + 1))).setSp (s.sp + 1))
  | push (src : Operand) (v : Word) (hp : s.pushOk = true) (hv : s.operand src = .ok v)
      (hw : ¬ (s.sp - 1).toInt < s.dataend) :
      Effect s (.push src) ((s.setData s.sp v).setSp (s.sp - 1))
  | pushStatic (src : Operand) (v : Word) (hp : s.pushOk = true) (hv : s.operand src = .ok v)
      (hw : (s.sp - 1).toInt < s.dataend) :
      Effect s (.push src)
        (((s.setData s.sp v).setSp (s.sp - 1)).warn .pushStatic s.instrAddr)
  | pop (dst : Operand) (ea : Word) (ha : s.address dst = .ok ea) (hp : s.popOk = true)
      (hd : s.validData ea = true) :
      Effect s (.pop dst) ((s.setData ea (s.dataAt (s.sp + 1))).setSp (s.sp + 1))

/-- Why an instruction raises a fatal error in `s`: one case for each test it fails, the tests before
it passed (spec/60_exceptions.md R145). -/
inductive Raises (s : State) : Instr → FatalKind → Prop
  | illop : Raises s .illop .illegal
  | load (r : Reg) (ad : Addr) (hd : s.validData (s.resolve ad) = false) :
      Raises s (.load r (.mem ad)) .segData
  | storeImm (r : Reg) (v : BitVec 20) : Raises s (.store r (.imm v)) .immediate
  | store (r : Reg) (ad : Addr) (hd : s.validData (s.resolve ad) = false) :
      Raises s (.store r (.mem ad)) .segData
  | add (r : Reg) (ad : Addr) (hd : s.validData (s.resolve ad) = false) :
      Raises s (.add r (.mem ad)) .segData
  | sub (r : Reg) (ad : Addr) (hd : s.validData (s.resolve ad) = false) :
      Raises s (.sub r (.mem ad)) .segData
  | branchImm (c : Cond) (v : BitVec 20) : Raises s (.branch c (.imm v)) .immediate
  | branchCond (c : Cond) (ad : Addr)
      (hc : c.isNamed = false ∨ (c ≠ .nc ∧ s.cc = .unknown)) :
      Raises s (.branch c (.mem ad)) .condition
  | callImm (c : Cond) (v : BitVec 20) : Raises s (.call c (.imm v)) .immediate
  | callCond (c : Cond) (ad : Addr)
      (hc : c.isNamed = false ∨ (c ≠ .nc ∧ s.cc = .unknown)) :
      Raises s (.call c (.mem ad)) .condition
  | callStack (c : Cond) (ad : Addr) (hj : shouldJump s.cc c = .ok true)
      (hp : s.pushOk = false) : Raises s (.call c (.mem ad)) .segStack
  | ret (hp : s.popOk = false) : Raises s .ret .segStack
  | pushStack (src : Operand) (hp : s.pushOk = false) : Raises s (.push src) .segStack
  | pushData (ad : Addr) (hp : s.pushOk = true) (hd : s.validData (s.resolve ad) = false) :
      Raises s (.push (.mem ad)) .segData
  | popImm (v : BitVec 20) : Raises s (.pop (.imm v)) .immediate
  | popStack (ad : Addr) (hp : s.popOk = false) : Raises s (.pop (.mem ad)) .segStack
  | popData (ad : Addr) (hp : s.popOk = true) (hd : s.validData (s.resolve ad) = false) :
      Raises s (.pop (.mem ad)) .segData

/-- The outcome of an instruction in `s`, split: its own effect, or the fatal error it raises. -/
def Ends (s : State) (i : Instr) (t : State) : Prop :=
  Effect s i t ∨ ∃ k, Raises s i k ∧ t = s.raise k s.instrAddr

theorem ends_operand (s t : State) (i : Instr) (src : Operand) (f : Word → Except FatalKind State)
    (hraise : ∀ ad, src = .mem ad → s.validData (s.resolve ad) = false → Raises s i .segData)
    (hok : ∀ v, s.operand src = .ok v → complete s (f v) = .next t → Ends s i t)
    (h : complete s (s.operand src >>= f) = .next t) : Ends s i t := by
  cases hv : s.operand src with
  | ok v => exact hok v hv (by rwa [hv, except_ok_bind] at h)
  | error k =>
    rw [hv, except_error_bind, complete_error, Host.Outcome.next.injEq] at h
    obtain ⟨ad, rfl, hd, rfl⟩ := (operand_eq_error s src k).mp hv
    exact .inr ⟨_, hraise ad rfl hd, h.symm⟩

theorem ends_address (s t : State) (i : Instr) (o : Operand) (f : Word → Except FatalKind State)
    (hraise : ∀ v, o = .imm v → Raises s i .immediate)
    (hok : ∀ ad, o = .mem ad → complete s (f (s.resolve ad)) = .next t → Ends s i t)
    (h : complete s (s.address o >>= f) = .next t) : Ends s i t := by
  cases o with
  | imm v => exact .inr ⟨_, hraise v rfl, (Host.Outcome.next.inj h).symm⟩
  | mem ad => exact hok ad rfl h

theorem ends_require (s t : State) (i : Instr) (b : Bool) (k : FatalKind)
    (f : Unit → Except FatalKind State) (hraise : b = false → Raises s i k)
    (hok : b = true → complete s (f ()) = .next t → Ends s i t)
    (h : complete s (require b k >>= f) = .next t) : Ends s i t := by
  cases hb : b with
  | true => exact hok hb (by rwa [hb] at h)
  | false =>
    rw [hb] at h
    exact .inr ⟨_, hraise hb, (Host.Outcome.next.inj h).symm⟩

theorem ends_shouldJump (s t : State) (i : Instr) (c : Cond) (f : Bool → Except FatalKind State)
    (hraise : c.isNamed = false ∨ (c ≠ .nc ∧ s.cc = .unknown) → Raises s i .condition)
    (hok : ∀ j, shouldJump s.cc c = .ok j → complete s (f j) = .next t → Ends s i t)
    (h : complete s (shouldJump s.cc c >>= f) = .next t) : Ends s i t := by
  cases hj : shouldJump s.cc c with
  | ok j => exact hok j hj (by rwa [hj, except_ok_bind] at h)
  | error k =>
    rw [hj, except_error_bind, complete_error, Host.Outcome.next.injEq] at h
    obtain ⟨rfl, hc⟩ := (shouldJump_eq_error s.cc c k).mp hj
    exact .inr ⟨_, hraise hc, h.symm⟩

theorem ends_ok (s t u : State) (i : Instr) (he : Effect s i u)
    (h : complete s (.ok u) = .next t) : Ends s i t := by
  cases h
  exact .inl he

/-- All an instruction can do: its own effect, or a fatal error for a test it fails. -/
theorem exec_cases (i : Instr) (s t : State) (h : exec i s = .next t) : Ends s i t := by
  cases i with
  | illop => exact .inr ⟨_, .illop, (Host.Outcome.next.inj h).symm⟩
  | nop => exact ends_ok s t _ _ .nop h
  | halt => exact ends_ok s t _ _ .halt h
  | load r src =>
    refine ends_operand s t _ src _ (fun ad e hd => e ▸ .load r ad hd) (fun v hv h => ?_) h
    exact ends_ok s t _ _ (.load r src v hv) h
  | add r src =>
    refine ends_operand s t _ src _ (fun ad e hd => e ▸ .add r ad hd) (fun v hv h => ?_) h
    exact ends_ok s t _ _ (.add r src v hv) h
  | sub r src =>
    refine ends_operand s t _ src _ (fun ad e hd => e ▸ .sub r ad hd) (fun v hv h => ?_) h
    exact ends_ok s t _ _ (.sub r src v hv) h
  | store r dst =>
    refine ends_address s t _ dst _ (fun v e => e ▸ .storeImm r v) (fun ad e h => ?_) h
    subst e
    refine ends_require s t _ _ _ _ (fun hd => .store r ad hd) (fun hd h => ?_) h
    exact ends_ok s t _ _ (.store r _ _ rfl hd) h
  | branch c target =>
    refine ends_address s t _ target _ (fun v e => e ▸ .branchImm c v) (fun ad e h => ?_) h
    subst e
    refine ends_shouldJump s t _ c _ (fun hc => .branchCond c ad hc) (fun j hj h => ?_) h
    cases j with
    | true => exact ends_ok s t _ _ (.branchTaken c _ _ rfl hj) h
    | false => exact ends_ok s t _ _ (.branchNotTaken c _ _ rfl hj) h
  | call c target =>
    refine ends_address s t _ target _ (fun v e => e ▸ .callImm c v) (fun ad e h => ?_) h
    subst e
    refine ends_shouldJump s t _ c _ (fun hc => .callCond c ad hc) (fun j hj h => ?_) h
    cases j with
    | false => exact ends_ok s t _ _ (.callNotTaken c _ _ rfl hj) h
    | true =>
      refine ends_require s t _ _ _ _ (fun hp => .callStack c ad hj hp) (fun hp h => ?_) h
      exact ends_ok s t _ _ (.callTaken c _ _ rfl hj hp) h
  | ret =>
    refine ends_require s t _ _ _ _ (fun hp => .ret hp) (fun hp h => ?_) h
    exact ends_ok s t _ _ (.ret hp) h
  | push src =>
    refine ends_require s t _ _ _ _ (fun hp => .pushStack src hp) (fun hp h => ?_) h
    refine ends_operand s t _ src _ (fun ad e hd => e ▸ .pushData ad hp hd) (fun v hv h => ?_) h
    rcases warnStatic_cases ((s.setData s.sp v).setSp (s.sp - 1)) with ⟨hw, e⟩ | ⟨hw, e⟩
    · rw [e] at h
      exact ends_ok s t _ _ (.pushStatic src v hp hv (by rwa [State.sp_setSp] at hw)) h
    · rw [e] at h
      exact ends_ok s t _ _ (.push src v hp hv (by rwa [State.sp_setSp] at hw)) h
  | pop dst =>
    refine ends_address s t _ dst _ (fun v e => e ▸ .popImm v) (fun ad e h => ?_) h
    subst e
    refine ends_require s t _ _ _ _ (fun hp => .popStack ad hp) (fun hp h => ?_) h
    refine ends_require s t _ _ _ _ (fun hd => .popData ad hp hd) (fun hd h => ?_) h
    exact ends_ok s t _ _ (.pop _ _ rfl hp hd) h

/-- The converse for an instruction that completes. -/
theorem exec_of_effect (s t : State) (i : Instr) (h : Effect s i t) : exec i s = .next t := by
  cases h with
  | nop => rfl
  | halt => rfl
  | load r src v hv => simp [exec, execLoad, hv]
  | store r dst ea ha hd => simp [exec, execStore, ha, hd]
  | add r src v hv => simp [exec, execAdd, hv]
  | sub r src v hv => simp [exec, execSub, hv]
  | branchTaken c target ea ha hj => simp [exec, execBranch, ha, hj]
  | branchNotTaken c target ea ha hj => simp [exec, execBranch, ha, hj]
  | callTaken c target ea ha hj hp => simp [exec, execCall, ha, hj, hp]
  | callNotTaken c target ea ha hj => simp [exec, execCall, ha, hj]
  | ret hp => simp [exec, execRet, hp]
  | push src v hp hv hw =>
    rcases warnStatic_cases ((s.setData s.sp v).setSp (s.sp - 1)) with ⟨hw', _⟩ | ⟨_, e⟩
    · exact absurd (by rwa [State.sp_setSp] at hw') hw
    · simp only [exec, execPush, hp, hv, require_true, except_ok_bind, complete_ok, e]
  | pushStatic src v hp hv hw =>
    rcases warnStatic_cases ((s.setData s.sp v).setSp (s.sp - 1)) with ⟨_, e⟩ | ⟨hw', _⟩
    · simp only [exec, execPush, hp, hv, require_true, except_ok_bind, complete_ok, e]
      rfl
    · exact absurd hw (by rwa [State.sp_setSp] at hw')
  | pop dst ea ha hp hd => simp [exec, execPop, ha, hp, hd]

/-- The converse for an instruction that raises. -/
theorem exec_of_raises (s : State) (i : Instr) (k : FatalKind) (h : Raises s i k) :
    exec i s = .next (s.raise k s.instrAddr) := by
  cases h with
  | illop => rfl
  | load r ad hd => simp [exec, execLoad, State.operand, hd]
  | storeImm r v => simp [exec, execStore, State.address]
  | store r ad hd => simp [exec, execStore, State.address, hd]
  | add r ad hd => simp [exec, execAdd, State.operand, hd]
  | sub r ad hd => simp [exec, execSub, State.operand, hd]
  | branchImm c v => simp [exec, execBranch, State.address]
  | branchCond c ad hc =>
    simp [exec, execBranch, State.address, (shouldJump_eq_error s.cc c .condition).mpr ⟨rfl, hc⟩]
  | callImm c v => simp [exec, execCall, State.address]
  | callCond c ad hc =>
    simp [exec, execCall, State.address, (shouldJump_eq_error s.cc c .condition).mpr ⟨rfl, hc⟩]
  | callStack c ad hj hp => simp [exec, execCall, State.address, hj, hp]
  | ret hp => simp [exec, execRet, hp]
  | pushStack src hp => simp [exec, execPush, hp]
  | pushData ad hp hd => simp [exec, execPush, hp, State.operand, hd]
  | popImm v => simp [exec, execPop, State.address]
  | popStack ad hp => simp [exec, execPop, State.address, hp]
  | popData ad hp hd => simp [exec, execPop, State.address, hp, hd]

/-- All a fetch can do (spec/40_decode_resolve_dispatch.md R80). -/
theorem fetch_cases (s : State) :
    (s.validText s.pc = false ∧ s.fetch = .error (s.raise .segText s.pc)) ∨
      (s.validText s.pc = true ∧ (∃ e, decode (s.textAt s.pc) = .error e) ∧
        s.fetch = .error (s.advance.raise .illegal s.pc)) ∨
      (s.validText s.pc = true ∧
        ∃ i, decode (s.textAt s.pc) = .ok i ∧ s.fetch = .ok (i, s.advance)) := by
  unfold State.fetch
  split
  · rename_i hv
    split
    · exact .inr (.inr ⟨hv, _, ‹_›, rfl⟩)
    · exact .inr (.inl ⟨hv, ⟨_, ‹_›⟩, rfl⟩)
  · rename_i hv
    exact .inl ⟨by simpa using hv, rfl⟩

/-- All a step that answers a next state can be (spec/40_decode_resolve_dispatch.md R80): a failed
fetch, a word that is no instruction, or the decoded instruction after the advance. -/
theorem step_cases (s t : State) (h : step s = .next t) :
    s.run = .running ∧
      ((s.validText s.pc = false ∧ t = s.raise .segText s.pc) ∨
        (s.validText s.pc = true ∧ (∃ e, decode (s.textAt s.pc) = .error e) ∧
          t = s.advance.raise .illegal s.pc) ∨
        (s.validText s.pc = true ∧
          ∃ i, decode (s.textAt s.pc) = .ok i ∧ exec i s.advance = .next t)) := by
  unfold step at h
  split at h
  · cases h
  · cases h
  · rename_i hr
    refine ⟨hr, ?_⟩
    rcases fetch_cases s with ⟨hv, e⟩ | ⟨hv, hd, e⟩ | ⟨hv, i, hd, e⟩
    · rw [e] at h
      exact .inl ⟨hv, (Host.Outcome.next.inj h).symm⟩
    · rw [e] at h
      exact .inr (.inl ⟨hv, hd, (Host.Outcome.next.inj h).symm⟩)
    · rw [e] at h
      exact .inr (.inr ⟨hv, i, hd, h⟩)

/-- A step with a valid pc runs the decoded instruction after the advance
(spec/40_decode_resolve_dispatch.md R80). -/
theorem step_of_decode (s : State) (i : Instr) (hr : s.run = .running) (hv : s.validText s.pc = true)
    (hd : decode (s.textAt s.pc) = .ok i) : step s = exec i s.advance := by
  unfold step State.fetch
  simp [hr, hv, hd]
/-- A step with a pc outside the text (spec/60_exceptions.md R142). -/
theorem step_of_pc_invalid (s : State) (hr : s.run = .running) (hv : s.validText s.pc = false) :
    step s = .next (s.raise .segText s.pc) := by
  unfold step State.fetch
  simp [hr, hv]

/-- A step at a word that is no instruction (spec/40_decode_resolve_dispatch.md R79). -/
theorem step_of_undecodable (s : State) (e : DecodeError) (hr : s.run = .running)
    (hv : s.validText s.pc = true) (hd : decode (s.textAt s.pc) = .error e) :
    step s = .next (s.advance.raise .illegal s.pc) := by
  unfold step State.fetch
  simp [hr, hv, hd]

/-- The opcode field of a word is the number of the instruction it decodes to
(spec/30_encoding.md R56). -/
theorem opcodeOf_of_decode (w : Word) (i : Instr) (h : decode w = .ok i) :
    opcodeOf i = (decodeFields w).opcode := by
  unfold decode at h
  simp only at h
  split at h
  case h_13 => cases h
  all_goals
    rename_i ho
    cases h
    exact BitVec.eq_of_toNat_eq ho.symm

end Sys2Proof.Machine
end

