-- ==== Sys2Proof/Laws/PerInstr.lean ====
section
/-! SUPPORT. The statements made once for each instruction. EncodesOpcode: the canonical word of an
instruction holds its number in bits 5 to 0, and the number is one of the twelve
(spec/30_encoding.md R56). -/

namespace Sys2Proof.Laws

def EncodesOpcode.Statement (i : Instr) : Prop :=
  (decodeFields (encode i)).opcode = opcodeOf i ∧ (opcodeOf i).toNat ≤ 11

theorem EncodesOpcode.illop : EncodesOpcode.Statement .illop := ⟨by simp [encode], by simp [opcodeOf]⟩
theorem EncodesOpcode.nop : EncodesOpcode.Statement .nop := ⟨by simp [encode], by simp [opcodeOf]⟩
theorem EncodesOpcode.load (r : Reg) (src : Operand) :
    EncodesOpcode.Statement (.load r src) := ⟨by simp [encode], by simp [opcodeOf]⟩
theorem EncodesOpcode.store (r : Reg) (dst : Operand) :
    EncodesOpcode.Statement (.store r dst) := ⟨by simp [encode], by simp [opcodeOf]⟩
theorem EncodesOpcode.add (r : Reg) (src : Operand) :
    EncodesOpcode.Statement (.add r src) := ⟨by simp [encode], by simp [opcodeOf]⟩
theorem EncodesOpcode.sub (r : Reg) (src : Operand) :
    EncodesOpcode.Statement (.sub r src) := ⟨by simp [encode], by simp [opcodeOf]⟩
theorem EncodesOpcode.branch (c : Cond) (target : Operand) :
    EncodesOpcode.Statement (.branch c target) := ⟨by simp [encode], by simp [opcodeOf]⟩
theorem EncodesOpcode.call (c : Cond) (target : Operand) :
    EncodesOpcode.Statement (.call c target) := ⟨by simp [encode], by simp [opcodeOf]⟩
theorem EncodesOpcode.ret : EncodesOpcode.Statement .ret := ⟨by simp [encode], by simp [opcodeOf]⟩
theorem EncodesOpcode.push (src : Operand) :
    EncodesOpcode.Statement (.push src) := ⟨by simp [encode], by simp [opcodeOf]⟩
theorem EncodesOpcode.pop (dst : Operand) :
    EncodesOpcode.Statement (.pop dst) := ⟨by simp [encode], by simp [opcodeOf]⟩
theorem EncodesOpcode.halt : EncodesOpcode.Statement .halt := ⟨by simp [encode], by simp [opcodeOf]⟩

end Sys2Proof.Laws
end

