-- ==== Sys2Proof/Tests/Slice0.lean ====
section
/-! SUPPORT. The model's own tests. Expected results are the spec's: the ids E<n> and V<n> are those of
spec/95_test_vectors.md, and a theorem named witness_<Name> shows a state and operands that meet the
hypotheses of Obligations.<Name>, each clause at a boundary of its range. -/

namespace Sys2Proof.Tests

open Sys2Proof.Machine

/-! ### A small state -/

/-- The start state of the vectors with the word `w` at index 0 of four instruction words: eight data
words, `dataend = 5`, `sp = 7`. -/
def start (w : Word) : State where
  regs := (Vector.replicate 16 0).set 15 7
  pc := 0
  cc := .unknown
  text := Memory.write [(1, 1), (2, 1), (3, 1)] 0 w
  data := [(0, 10), (1, 5), (2, 20)]
  textsize := 4
  datasize := 8
  dataend := 5
  run := .running
  warnings := []

/-- A look at the next state of an outcome. -/
def look {α : Type} (f : State → α) (o : Host.Outcome State Fault Refusal) : Option α :=
  match o with
  | .next t => some (f t)
  | .fault _ => none
  | .refused _ => none

/-! ### Well-formedness: each check refuses an ill-formed term -/

theorem test_wf_store_refuses_literal : Instr.wf (.store 1 (.imm 0)) = false := by decide
theorem test_wf_branch_refuses_literal : Instr.wf (.branch .nc (.imm 2)) = false := by decide
theorem test_wf_branch_refuses_condition :
    Instr.wf (.branch (.reserved 0) (.mem (.abs 2))) = false := by decide
theorem test_wf_call_refuses_literal : Instr.wf (.call .nc (.imm 2)) = false := by decide
theorem test_wf_call_refuses_condition :
    Instr.wf (.call (.reserved 8) (.mem (.abs 2))) = false := by decide
theorem test_wf_pop_refuses_literal : Instr.wf (.pop (.imm 0)) = false := by decide
theorem test_wf_accepts :
    Instr.wf (.load 15 (.imm 0)) = true ∧ Instr.wf (.call .le (.mem (.idx 3 (-2)))) = true ∧
      Instr.wf (.push (.imm 5)) = true := by decide

/-! ### Decoding: every constructor, from words the spec writes out -/

/-- V60, V61: all bits but the opcode are ignored. -/
theorem test_decode_illop :
    decode 0x00000000 = .ok .illop ∧ decode 0xFFFFFFC0 = .ok .illop := by decide
/-- V62, V63. -/
theorem test_decode_nop : decode 0x00000001 = .ok .nop ∧ decode 0xFFFFFFC1 = .ok .nop := by decide
/-- V1, V8, V16. -/
theorem test_decode_load :
    decode 0xFFFFB342 = .ok (.load 3 (.imm (-5))) ∧
      decode 0xFFFF4282 = .ok (.load 2 (.mem (.idx 4 (-1)))) ∧
      decode 0xFFFFF402 = .ok (.load 4 (.mem (.abs 1048575))) := by decide
/-- V13: both flags set, the literal wins. -/
theorem test_decode_both_flags : decode 0x000123C2 = .ok (.load 3 (.imm 18)) := by decide
/-- V18, V20. -/
theorem test_decode_store :
    decode 0x00036583 = .ok (.store 5 (.mem (.idx 6 3))) ∧
      decode 0x000081C3 = .ok (.store 1 (.imm 8)) := by decide
/-- V31, V40. -/
theorem test_decode_add :
    decode 0x00002084 = .ok (.add 0 (.mem (.idx 2 0))) ∧
      decode 0x80000144 = .ok (.add 1 (.imm (-524288))) := by decide
/-- V42, V48. -/
theorem test_decode_sub :
    decode 0x00001145 = .ok (.sub 1 (.imm 1)) ∧
      decode 0xFFFD2185 = .ok (.sub 1 (.mem (.idx 2 (-3)))) := by decide
/-- V82, V84, V85: condition 6 has a name, 7 and 15 have none. -/
theorem test_decode_branch :
    decode 0x00006606 = .ok (.branch .le (.mem (.abs 6))) ∧
      decode 0x00002706 = .ok (.branch (.reserved 0) (.mem (.abs 2))) ∧
      decode 0x00002F06 = .ok (.branch (.reserved 8) (.mem (.abs 2))) := by decide
/-- V101, V110. -/
theorem test_decode_call :
    decode 0x00009107 = .ok (.call .eq (.mem (.abs 9))) ∧
      decode 0x0000F087 = .ok (.call .nc (.mem (.idx 15 0))) := by decide
/-- V115, V119. -/
theorem test_decode_ret : decode 0x00000008 = .ok .ret ∧ decode 0xFFFFFFC8 = .ok .ret := by decide
/-- V130, V142: PUSH ignores `reg_or_cond`. -/
theorem test_decode_push :
    decode 0x00005049 = .ok (.push (.imm 5)) ∧ decode 0x00005F49 = .ok (.push (.imm 5)) := by
  decide
/-- V149, V156: POP ignores `reg_or_cond`. -/
theorem test_decode_pop :
    decode 0x0001F08A = .ok (.pop (.mem (.idx 15 1))) ∧
      decode 0x0000390A = .ok (.pop (.mem (.abs 3))) := by decide
/-- V64, V65. -/
theorem test_decode_halt :
    decode 0x0000000B = .ok .halt ∧ decode 0xFFFFFFCB = .ok .halt := by decide
/-- V66, V67, V68: opcodes 12 to 63 are refused, whatever the other bits say. -/
theorem test_decode_reserved :
    decode 0x0000000C = .error (.opcodeOutOfRange 12) ∧
      decode 0xFFFFFFFF = .error (.opcodeOutOfRange 63) ∧
      decode 0x0000004C = .error (.opcodeOutOfRange 12) := by decide
/-- E20: all eight fields of one word, the signed ones as signed. -/
theorem test_fields_of_E20 :
    let f := decodeFields 0xDEADBEEF
    (f.opcode.toNat, f.immediate, f.indexed, f.regOrCond.toNat) = (47, 1, 1, 14) ∧
      (f.absAddr.toNat, f.immVal.toInt, f.rindex.toNat, f.offset.toInt) =
        (912091, -136485, 11, -8531) := by decide
/-- V1, V8, V150, each the canonical word. -/
theorem test_encode :
    encode (.load 3 (.imm (-5))) = 0xFFFFB342 ∧
      encode (.load 2 (.mem (.idx 4 (-1)))) = 0xFFFF4282 ∧
      encode (.pop (.mem (.idx 15 0))) = 0x0000F08A := by decide
theorem test_decodeTableWord :
    decodeTableWord 8 0x0B = some .halt ∧ decodeTableWord 32 0x0C = none := by decide

/-! ### One step -/

/-- V60. -/
theorem test_illop :
    look (fun t => (t.pc, t.run)) (step (start 0x00000000)) =
      some (1, .faulted .illegal 0) := by decide
/-- V67: opcode 63. -/
theorem test_reserved_opcode :
    look (fun t => (t.pc, t.run)) (step (start 0xFFFFFFFF)) =
      some (1, .faulted .illegal 0) := by decide
/-- V63. -/
theorem test_nop :
    look (fun t => (t.pc, t.cc, t.run)) (step (start 0xFFFFFFC1)) =
      some (1, .unknown, .running) := by decide
/-- V64. -/
theorem test_halt :
    look (fun t => (t.pc, t.run, t.warnings)) (step (start 0x0000000B)) =
      some (1, .halted, [⟨.halt, 0⟩]) := by decide
/-- V8: an indexed address with a negative offset. -/
theorem test_load_indexed :
    look (fun t => (t.reg 2, t.cc)) (step ((start 0xFFFF4282).setReg 4 3)) =
      some (20, .positive) := by decide
/-- V12: the wrapped address is invalid, as the exact one is. -/
theorem test_load_wrapped_address :
    look (fun t => (t.reg 1, t.run)) (step ((start 0x80005182).setReg 5 0x80000000)) =
      some (0, .faulted .segData 0) := by decide
/-- V24: the address is `sp - 1`. -/
theorem test_store :
    look (fun t => (t.dataAt 6, t.dataAt 7)) (step ((start 0xFFFFF183).setReg 1 (-3))) =
      some (-3, 0) := by decide
/-- V20: `Immediate` before `SegData`. -/
theorem test_store_literal :
    look (fun t => t.run) (step (start 0x000081C3)) = some (.faulted .immediate 0) := by decide
/-- V32: the sum wraps and `cc` is the sign of the wrapped sum. -/
theorem test_add_wraps :
    look (fun t => (t.reg 1, t.cc)) (step ((start 0x00001144).setReg 1 0x7FFFFFFF)) =
      some (0x80000000, .negative) := by decide
/-- V37: the address is formed from the register before it is overwritten. -/
theorem test_add_index_is_destination :
    look (fun t => (t.reg 1, t.cc)) (step ((start 0x00001184).setReg 1 2)) =
      some (22, .positive) := by decide
/-- V43: the register is the minuend. -/
theorem test_sub :
    look (fun t => (t.reg 7, t.cc)) (step (((start 0x00003705).setReg 7 2).setData 3 5)) =
      some (-3, .negative) := by decide
/-- V44. -/
theorem test_sub_wraps :
    look (fun t => (t.reg 1, t.cc)) (step ((start 0x00001145).setReg 1 0x80000000)) =
      some (0x7FFFFFFF, .positive) := by decide
/-- V91: a taken branch to an invalid index completes. -/
theorem test_branch_outside :
    look (fun t => (t.pc, t.run)) (step (start 0xFFFF0086)) = some (-1, .running) := by decide
/-- V87: `Immediate` before `Condition`. -/
theorem test_branch_literal :
    look (fun t => t.run) (step (start 0x00002946)) = some (.faulted .immediate 0) := by decide
/-- V110: the target is the old `sp`; the word pushed is `a + 1`. -/
theorem test_call :
    look (fun t => (t.pc, t.sp, t.dataAt 7)) (step (start 0x0000F087)) = some (7, 6, 1) := by decide
/-- V108: a call not taken makes no stack test. -/
theorem test_call_not_taken :
    look (fun t => (t.pc, t.run)) (step (((start 0x00002107).setSp 0).setCc .positive)) =
      some (1, .running) := by decide
/-- V117: `sp = -1` makes index 0 the popped slot. -/
theorem test_ret :
    look (fun t => (t.pc, t.sp)) (step ((start 0x00000008).setSp (-1))) = some (10, 0) := by decide
/-- V118. -/
theorem test_ret_wrapped_sp :
    look (fun t => (t.pc, t.run)) (step ((start 0x00000008).setSp 0x7FFFFFFF)) =
      some (1, .faulted .segStack 0) := by decide
/-- V132: the word lands at `dataend`, and the new `sp` below it warns. -/
theorem test_push_warns :
    look (fun t => (t.sp, t.dataAt 5, t.warnings)) (step ((start 0x00005049).setSp 5)) =
      some (4, 5, [⟨.pushStatic, 0⟩]) := by decide
/-- V140: `SegStack` before `SegData`. -/
theorem test_push_at_zero :
    look (fun t => (t.sp, t.run)) (step ((start 0x00008009).setSp 0)) =
      some (0, .faulted .segStack 0) := by decide
/-- V150: the destination is formed from the old `sp`. -/
theorem test_pop :
    look (fun t => (t.sp, t.dataAt 5)) (step (((start 0x0000F08A).setSp 5).setData 6 9)) =
      some (6, 9) := by decide
/-- V154: `SegStack` before `SegData`. -/
theorem test_pop_empty :
    look (fun t => (t.sp, t.run)) (step (start 0x0000800A)) =
      some (7, .faulted .segStack 0) := by decide
/-- V70: off the end of the text. -/
theorem test_pc_off_the_end :
    look (fun t => (t.pc, t.run)) (step ((start 1).setPc 4)) =
      some (4, .faulted .segText 4) := by decide
/-- An instruction placed for fetch is the first one run after reset. -/
theorem test_withFetchWord :
    look (fun t => (t.pc, t.run)) (step (State.reset.withFetchWord 32 0x0000000B)) =
      some (1, .halted) := by decide

/-! ### Witnesses: the hypotheses of the statements can be met -/

theorem witness_EncodeOfDecodeClearsIgnoredBits :
    decode 0x00005F49 = .ok (.push (.imm 5)) := by decide

theorem witness_IndexedAddressIsValidWhenTheExactSumIs :
    State.reset.textsize ≤ Config.sizeMax ∧ State.reset.datasize ≤ Config.sizeMax := by decide

theorem witness_SignedAndUnsignedRangeTestsAgree :
    State.reset.textsize ≤ Config.sizeMax ∧ State.reset.datasize ≤ Config.sizeMax := by decide

/-- Index 7 is the last data word, 8 the first address past it. -/
theorem witness_OperandFetchReadsLiteralOrDataWord :
    (start 1).validData ((start 1).resolve (.abs 7)) = true ∧
      (start 1).validData ((start 1).resolve (.abs 8)) = false := by decide

theorem witness_PopTestIsTheRangeOfTheStackPointer :
    State.reset.datasize ≤ Config.sizeMax ∧ State.reset.pushOk = true := by decide

/-- Opcodes 0, 12 and 63. -/
theorem witness_IllopAndReservedWordsRaiseIllegal :
    (0xFFFFFFC0 : Word).extractLsb' 0 6 = 0 ∧
      ((start 0).run = .running ∧ (start 0).validText (start 0).pc = true ∧
        ((start 0).textAt (start 0).pc).toNat % 64 = 0) ∧
      ((start 12).run = .running ∧ (start 12).validText (start 12).pc = true ∧
        12 ≤ ((start 12).textAt (start 12).pc).toNat % 64) ∧
      12 ≤ ((start 63).textAt (start 63).pc).toNat % 64 := by decide

/-- The NOP of `start 1` at index 0, and the one at the last text index, 3. -/
theorem witness_NopOnlyAdvancesThePc :
    (0xFFFFFFC1 : Word).extractLsb' 0 6 = 1 ∧
      ((start 1).run = .running ∧ (start 1).validText (start 1).pc = true ∧
        ((start 1).textAt (start 1).pc).extractLsb' 0 6 = 1) ∧
      (let s := (start 1).setPc 3
       s.run = .running ∧ s.textsize ≤ Config.sizeMax ∧ s.validText s.pc = true ∧
        s.pc.toInt + 1 = s.textsize ∧ (s.textAt s.pc).extractLsb' 0 6 = 1) := by decide

theorem witness_HaltWarnsAndEndsTheRun :
    (0xFFFFFFCB : Word).extractLsb' 0 6 = 11 ∧
      ((start 11).run = .running ∧ (start 11).validText (start 11).pc = true ∧
        ((start 11).textAt (start 11).pc).extractLsb' 0 6 = 11) := by decide

theorem witness_LoadWritesRegisterAndSign :
    (0xFFFFB342 : Word).extractLsb' 0 6 = 2 ∧
      (start 1).validData ((start 1).resolve (.abs 7)) = true ∧
      (start 1).validData ((start 1).resolve (.abs 8)) = false := by decide

theorem witness_StoreWritesTheDataWord :
    (0x00002003 : Word).extractLsb' 0 6 = 3 ∧
      (start 1).validData ((start 1).resolve (.idx 15 0)) = true ∧
      (start 1).validData ((start 1).resolve (.idx 15 1)) = false := by decide

theorem witness_AddWritesSumAndSign :
    (0x00001144 : Word).extractLsb' 0 6 = 4 ∧
      (start 1).validData ((start 1).resolve (.idx 0 0)) = true ∧
      (start 1).validData ((start 1).resolve (.idx 0 (-1))) = false := by decide

theorem witness_SubWritesDifferenceAndSign :
    (0x00001145 : Word).extractLsb' 0 6 = 5 ∧
      (start 1).validData ((start 1).resolve (.abs 0)) = true ∧
      (start 1).validData ((start 1).resolve (.abs 1048575)) = false := by decide

/-- Conditions 0, 6 and the reserved 7; the bad targets are 4, the first index behind the text, and
-1. -/
theorem witness_BranchSetsPcWhenTheConditionHolds :
    (0x00006606 : Word).extractLsb' 0 6 = 6 ∧
      shouldJump (start 1).cc (.reserved 0) = .error .condition ∧
      shouldJump (start 1).cc .le = .error .condition ∧
      shouldJump (start 1).cc .nc = .ok true ∧
      shouldJump ((start 1).setCc .positive).cc .le = .ok false ∧
      ((start 0x00004006).run = .running ∧
        (start 0x00004006).validText (start 0x00004006).pc = true ∧
        decode (Memory.read (start 0x00004006).text (start 0x00004006).pc.toNat) =
          .ok (.branch .nc (.mem (.abs 4))) ∧
        shouldJump (start 0x00004006).cc .nc = .ok true ∧
        (start 0x00004006).validText ((start 0x00004006).resolve (.abs 4)) = false) ∧
      (decode (Memory.read (start 0xFFFF0086).text (start 0xFFFF0086).pc.toNat) =
          .ok (.branch .nc (.mem (.idx 0 (-1)))) ∧
        (start 0xFFFF0086).validText ((start 0xFFFF0086).resolve (.idx 0 (-1))) = false) := by
  decide

/-- The stack pointers 0 and 8 fail the test, 1 and 7 pass it. -/
theorem witness_CallPushesReturnAddressAndJumps :
    (0x00004007 : Word).extractLsb' 0 6 = 7 ∧
      shouldJump (start 1).cc (.reserved 8) = .error .condition ∧
      shouldJump ((start 1).setCc .zero).cc .ne = .ok false ∧
      shouldJump (start 1).cc .nc = .ok true ∧
      ¬ (1 ≤ ((start 1).setSp 0).sp.toInt) ∧
      ¬ (((start 1).setSp 8).sp.toInt ≤ ((start 1).datasize : Int) - 1) ∧
      (1 ≤ ((start 1).setSp 1).sp.toInt ∧
        ((start 1).setSp 1).sp.toInt ≤ ((start 1).datasize : Int) - 1) ∧
      (1 ≤ (start 1).sp.toInt ∧ (start 1).sp.toInt ≤ ((start 1).datasize : Int) - 1) := by decide

/-- The stack pointers -1 and 6 pass the test, -2 and 7 fail it. -/
theorem witness_RetPopsThePc :
    (0xFFFFFFC8 : Word).extractLsb' 0 6 = 8 ∧
      ((start 1).setSp (-1)).validData (((start 1).setSp (-1)).sp + 1) = true ∧
      ((start 1).setSp 6).validData (((start 1).setSp 6).sp + 1) = true ∧
      ((start 1).setSp (-2)).validData (((start 1).setSp (-2)).sp + 1) = false ∧
      (start 1).validData ((start 1).sp + 1) = false := by decide

/-- The test of the stack pointer written out, at its two bounds, and with it the tests of the
source. -/
theorem witness_PushWritesThenDecrements :
    (0x00005F49 : Word).extractLsb' 0 6 = 9 ∧
      ¬ (1 ≤ ((start 1).setSp 0).sp.toInt) ∧
      ¬ (((start 1).setSp 8).sp.toInt ≤ ((start 1).datasize : Int) - 1) ∧
      (1 ≤ ((start 1).setSp 1).sp.toInt ∧
        ((start 1).setSp 1).sp.toInt ≤ ((start 1).datasize : Int) - 1) ∧
      (1 ≤ (start 1).sp.toInt ∧ (start 1).sp.toInt ≤ ((start 1).datasize : Int) - 1) ∧
      (start 1).validData ((start 1).resolve (.abs 7)) = true ∧
      (start 1).validData ((start 1).resolve (.abs 8)) = false := by decide

theorem witness_PopIncrementsThenWrites :
    (0x0000390A : Word).extractLsb' 0 6 = 10 ∧
      (start 1).validData ((start 1).sp + 1) = false ∧
      (let s := (start 1).setSp 6
       s.validData (s.sp + 1) = true ∧ s.validData (s.resolve (.abs 7)) = true ∧
        s.validData (s.resolve (.abs 8)) = false) := by decide

/-- A LOAD, an ADD and a SUB that complete. -/
theorem witness_LoadAddSubChangeOneRegisterAndCc :
    exec (.load 1 (.imm 5)) (start 1) = .next ((start 1).writeBack 1 5) ∧
      exec (.add 1 (.mem (.abs 1))) (start 1) = .next ((start 1).writeBack 1 5) ∧
      exec (.sub 1 (.imm (-5))) (start 1) = .next ((start 1).writeBack 1 5) := ⟨rfl, rfl, rfl⟩

/-- A STORE that completes at the last data word, and the literal form. -/
theorem witness_StoreChangesOneDataWord :
    (exec (.store 15 (.mem (.abs 7))) (start 1) = .next ((start 1).setData 7 7) ∧
      (start 1).address (.mem (.abs 7)) = .ok 7) ∧
    (exec (.store 15 (.imm 7)) (start 1) = .next ((start 1).raise .immediate (-1)) ∧
      (start 1).address (.imm 7) = .error .immediate) := ⟨⟨rfl, rfl⟩, rfl, rfl⟩

/-- A PUSH and a taken CALL that complete. -/
theorem witness_PushAndCallChangeTheSlotAtSp :
    exec (.push (.imm 5)) (start 1) = .next (((start 1).setData 7 5).setSp 6) ∧
      exec (.call .nc (.mem (.abs 2))) (start 1) =
        .next ((((start 1).setData 7 0).setSp 6).setPc 2) := ⟨rfl, rfl⟩

/-- A POP that completes, and the literal form. -/
theorem witness_PopChangesSpAndOneDataWord :
    (exec (.pop (.mem (.abs 3))) ((start 1).setSp 1) =
        .next ((((start 1).setSp 1).setData 3 20).setSp 2) ∧
      ((start 1).setSp 1).address (.mem (.abs 3)) = .ok 3) ∧
    (exec (.pop (.imm 3)) (start 1) = .next ((start 1).raise .immediate (-1)) ∧
      (start 1).address (.imm 3) = .error .immediate) := ⟨⟨rfl, rfl⟩, rfl, rfl⟩

/-- All five instructions end in a next state. -/
theorem witness_ControlAndSystemWriteNoData :
    exec .illop (start 1) = .next ((start 1).raise .illegal (-1)) ∧
      exec .nop (start 1) = .next (start 1) ∧
      exec .halt (start 1) = .next (((start 1).warn .halt (-1)).setRun .halted) ∧
      exec .ret ((start 1).setSp 1) = .next (((start 1).setPc 20).setSp 2) ∧
      exec (.branch .nc (.mem (.abs 3))) (start 1) = .next ((start 1).setPc 3) :=
  ⟨rfl, rfl, rfl, rfl, rfl⟩

theorem witness_StepRunsTheDecodedInstruction :
    (start 1).run = .running ∧ (start 1).validText (start 1).pc = true ∧
      decode (Memory.read (start 1).text (start 1).pc.toNat) = .ok .nop := by decide

/-- The pcs -1 and 4 are no text index; an instruction that completes. -/
theorem witness_PcOutsideTheTextRaisesSegText :
    (((start 1).setPc (-1)).run = .running ∧
      ((start 1).setPc (-1)).validText ((start 1).setPc (-1)).pc = false ∧
      ((start 1).setPc 4).validText ((start 1).setPc 4).pc = false) ∧
    ((start 1).run = .running ∧ exec .nop (start 1) = .next (start 1)) :=
  ⟨by decide, rfl, rfl⟩

theorem witness_NoStepFromATerminalState :
    ((start 1).setRun .halted).run = .halted ∧
      ((start 1).setRun (.faulted .segText 4)).run = .faulted .segText 4 := by decide

/-- A PUSH runs from a state that meets the invariant. -/
theorem witness_EveryStepKeepsTheMachineInvariant :
    (start 0x00005049).Inv ∧
      step (start 0x00005049) =
        .next (((start 0x00005049).advance.setData 7 5).setSp 6) := ⟨by decide, rfl⟩

/-- A HALT, a step that faults, and a PUSH that warns, from states whose reports are so. -/
theorem witness_EveryStepKeepsTheReportsTrue :
    ((start 11).reportsOk = true ∧
      step (start 11) = .next (((start 11).advance.warn .halt 0).setRun .halted)) ∧
    ((start 0).reportsOk = true ∧ step (start 0) = .next ((start 0).advance.raise .illegal 0)) ∧
    (((start 0x00005049).setSp 5).reportsOk = true ∧
      step ((start 0x00005049).setSp 5) =
        .next ((((start 0x00005049).advance.setData 5 5).setSp 4).warn .pushStatic 0)) :=
  ⟨⟨by decide, rfl⟩, ⟨by decide, rfl⟩, by decide, rfl⟩

/-- A fault of an instruction, and a failed fetch. -/
theorem witness_FatalErrorsArePrecise :
    ((start 8).run = .running ∧
      step (start 8) = .next ((start 8).advance.raise .segStack 0) ∧
      ((start 8).advance.raise .segStack 0).run = .faulted .segStack 0) ∧
    (((start 1).setPc 4).run = .running ∧
      step ((start 1).setPc 4) = .next (((start 1).setPc 4).raise .segText 4) ∧
      (((start 1).setPc 4).raise .segText 4).run = .faulted .segText 4) :=
  ⟨⟨rfl, rfl, rfl⟩, rfl, rfl, rfl⟩

theorem witness_OnlyTheListedFaultsAreRaised :
    (start 1).run = .running ∧
      exec .ret (start 1) = .next ((start 1).raise .segStack (-1)) ∧
      ((start 1).raise .segStack (-1)).run = .faulted .segStack (-1) := ⟨rfl, rfl, rfl⟩

/-- A legal BRANCH EQ with `cc` Unknown. -/
theorem witness_LegalFormsRaiseNoEncodingFault :
    Instr.wf (.branch .eq (.mem (.abs 0))) = true ∧ (start 1).run = .running ∧
      exec (.branch .eq (.mem (.abs 0))) (start 1) = .next ((start 1).raise .condition (-1)) ∧
      ((start 1).raise .condition (-1)).run = .faulted .condition (-1) := ⟨rfl, rfl, rfl, rfl⟩

theorem witness_OnlyHaltEndsARunNormally :
    (start 11).run = .running ∧
      step (start 11) = .next (((start 11).advance.warn .halt 0).setRun .halted) := ⟨rfl, rfl⟩

/-- A step that changes `cc`, and one that leaves it Unknown. -/
theorem witness_OnlyLoadAddSubWriteCc :
    ((start 0x00000042).run = .running ∧
      step (start 0x00000042) = .next ((start 0x00000042).advance.writeBack 0 0) ∧
      ((start 0x00000042).advance.writeBack 0 0).cc ≠ (start 0x00000042).cc) ∧
    ((start 1).run = .running ∧ step (start 1) = .next (start 1).advance ∧
      (start 1).advance.cc = .unknown) :=
  ⟨⟨rfl, rfl, by decide⟩, rfl, rfl, rfl⟩

/-- A taken branch, and a failed fetch. -/
theorem witness_OnlyJumpsMoveThePcElsewhere :
    ((start 0x00002006).run = .running ∧
      step (start 0x00002006) = .next ((start 0x00002006).advance.setPc 2) ∧
      ((start 0x00002006).advance.setPc 2).pc ≠ (start 0x00002006).pc + 1) ∧
    (((start 1).setPc 4).run = .running ∧
      step ((start 1).setPc 4) = .next (((start 1).setPc 4).raise .segText 4) ∧
      (((start 1).setPc 4).raise .segText 4).pc ≠ ((start 1).setPc 4).pc + 1) :=
  ⟨⟨rfl, rfl, by decide⟩, rfl, rfl, by decide⟩

theorem witness_NoRunChangesTheText :
    Sys2Proof.core.run 1 (start 1) = .next (start 1).advance := rfl

theorem witness_AtMostOneWarningPerStep :
    ((start 0x00005049).setSp 5).run = .running ∧
      step ((start 0x00005049).setSp 5) =
        .next ((((start 0x00005049).advance.setData 5 5).setSp 4).warn .pushStatic 0) := ⟨rfl, rfl⟩

theorem witness_WarningsAreNeverRead :
    step (start 11) = .next (((start 11).advance.warn .halt 0).setRun .halted) := rfl

/-- A PUSH whose log differs under another `dataend`, and a HALT whose log does not. -/
theorem witness_DataendOnlyDecidesTheWarning :
    (step ((start 0x00005049).setSp 5) =
        .next ((((start 0x00005049).advance.setData 5 5).setSp 4).warn .pushStatic 0) ∧
      look (·.warnings) (step { (start 0x00005049).setSp 5 with dataend := 4 }) = some []) ∧
    step (start 11) = .next (((start 11).advance.warn .halt 0).setRun .halted) := ⟨⟨rfl, rfl⟩, rfl⟩

/-- A SUB, which writes `cc`, and a RET, which keeps it. -/
theorem witness_OnlyJumpsReadCc :
    ((∀ b target, (Instr.sub 1 (.imm (-5))) ≠ .branch b target) ∧
      (∀ b target, (Instr.sub 1 (.imm (-5))) ≠ .call b target) ∧
      exec (.sub 1 (.imm (-5))) (start 1) = .next ((start 1).writeBack 1 5)) ∧
    (∀ b target, (Instr.ret) ≠ .branch b target) ∧ (∀ b target, (Instr.ret) ≠ .call b target) ∧
      exec .ret ((start 1).setSp 1) = .next (((start 1).setPc 20).setSp 2) :=
  ⟨⟨fun _ _ h => (nomatch h), fun _ _ h => (nomatch h), rfl⟩,
    fun _ _ h => (nomatch h), fun _ _ h => (nomatch h), rfl⟩

/-- A PUSH, a POP, a RET and a taken CALL that complete. -/
theorem witness_StackOperationsLeaveSpInRange :
    (start 1).datasize ≤ Config.sizeMax ∧ (start 1).run = .running ∧
      exec (.push (.imm 5)) (start 1) = .next (((start 1).setData 7 5).setSp 6) ∧
      exec (.pop (.mem (.abs 3))) ((start 1).setSp 1) =
        .next ((((start 1).setSp 1).setData 3 20).setSp 2) ∧
      exec .ret ((start 1).setSp (-1)) = .next (((start 1).setPc 10).setSp 0) ∧
      shouldJump (start 1).cc .nc = .ok true ∧
      exec (.call .nc (.mem (.abs 2))) (start 1) =
        .next ((((start 1).setData 7 0).setSp 6).setPc 2) :=
  ⟨by decide, rfl, rfl, rfl, rfl, rfl, rfl⟩

/-- The RET runs in the very state the CALL left. -/
theorem witness_RetReturnsBehindTheCall :
    let t := ((((start 1).setData 7 0).setSp 6).setPc 2)
    Memory.wf (start 1).data = true ∧ shouldJump (start 1).cc .nc = .ok true ∧
      (start 1).pushOk = true ∧ exec (.call .nc (.mem (.abs 2))) (start 1) = .next t ∧
      t.sp = t.sp ∧ t.datasize = t.datasize ∧
      Memory.read t.data (start 1).sp.toNat = Memory.read t.data (start 1).sp.toNat :=
  ⟨by decide, rfl, by decide, rfl, rfl, rfl, rfl⟩

/-- The POP runs in the very state the PUSH left. -/
theorem witness_PopReturnsThePushedWord :
    let t := (((start 1).setData 7 5).setSp 6)
    Memory.wf (start 1).data = true ∧ (start 1).pushOk = true ∧
      (start 1).operand (.imm 5) = .ok 5 ∧ exec (.push (.imm 5)) (start 1) = .next t ∧
      t.sp = t.sp ∧ t.datasize = t.datasize ∧
      Memory.read t.data (start 1).sp.toNat = Memory.read t.data (start 1).sp.toNat ∧
      t.validData (t.resolve (.abs 3)) = true :=
  ⟨by decide, by decide, rfl, rfl, rfl, rfl, rfl, by decide⟩

/-- The STORE's address absolute, the LOAD's indexed. -/
theorem witness_LoadReadsTheStoredWord :
    Memory.wf (start 1).data = true ∧
      (start 1).validData ((start 1).resolve (.abs 7)) = true ∧
      exec (.store 15 (.mem (.abs 7))) (start 1) = .next ((start 1).setData 7 7) ∧
      ((start 1).setData 7 7).resolve (.idx 15 0) = (start 1).resolve (.abs 7) :=
  ⟨by decide, by decide, rfl, by decide⟩

/-- The least sizes in bounds, and a `dataend` one past the largest. -/
theorem witness_LoadOperationMakesTheResetState :
    ([] : List Word).length = 0 ∧ ([5] : List Word).length = 1 ∧ sizesOk 0 1 1 = true ∧
      sizesOk 0 1 2 = false ∧ sizesOk 0 0 0 = false := by decide

theorem witness_AWordPlacedForFetchIsTheOneRun :
    Memory.wf State.reset.text = true ∧ 0x0000000B < 2 ^ 32 ∧
      decode (BitVec.ofNat 32 0x0000000B) = .ok .halt := by decide

end Sys2Proof.Tests
end

section
/-! The machine invariant (spec/10_state.md R18, R19, R25): where an instruction and a step write
memory, and that the invariant survives such a write. -/

namespace Sys2Proof.Machine

/-- All the way from `s` to `t` can have done to the memories and the sizes: at most one data word
written, at an address that is valid in `s`. -/
structure State.WritesInsideData (s t : State) : Prop where
  text : t.text = s.text
  textsize : t.textsize = s.textsize
  datasize : t.datasize = s.datasize
  dataend : t.dataend = s.dataend
  data : t.data = s.data ∨
    ∃ a v, s.validData a = true ∧ t.data = Memory.write s.data a.toNat v

/-- The range tests come before the writes: STORE and POP test their address, CALL and PUSH test
`sp`, and no other instruction writes a data word. -/
theorem effect_writesInsideData (s t : State) (i : Instr) (h : Effect s i t) :
    s.WritesInsideData t := by
  cases h with
  | nop | halt | load | add | sub | branchTaken | branchNotTaken | callNotTaken | ret =>
    exact ⟨rfl, rfl, rfl, rfl, .inl rfl⟩
  | store r dst ea ha hd => exact ⟨rfl, rfl, rfl, rfl, .inr ⟨ea, _, hd, rfl⟩⟩
  | pop dst ea ha hp hd => exact ⟨rfl, rfl, rfl, rfl, .inr ⟨ea, _, hd, rfl⟩⟩
  | callTaken c target ea ha hj hp =>
    exact ⟨rfl, rfl, rfl, rfl, .inr ⟨s.sp, _, pushOk_validData s hp, rfl⟩⟩
  | push src v hp hv hw | pushStatic src v hp hv hw =>
    exact ⟨rfl, rfl, rfl, rfl, .inr ⟨s.sp, _, pushOk_validData s hp, rfl⟩⟩

theorem raise_writesInsideData (s : State) (k : FatalKind) (a : Word) :
    s.WritesInsideData (s.raise k a) :=
  ⟨rfl, rfl, rfl, rfl, .inl rfl⟩

theorem exec_writesInsideData (i : Instr) (s t : State) (h : exec i s = .next t) :
    s.WritesInsideData t := by
  rcases exec_cases i s t h with he | ⟨k, -, rfl⟩
  · exact effect_writesInsideData s t i he
  · exact raise_writesInsideData s k s.instrAddr

/-- The advance of the pc touches no memory and no size. -/
theorem writesInsideData_of_advance (s t : State) (h : s.advance.WritesInsideData t) :
    s.WritesInsideData t :=
  ⟨h.text, h.textsize, h.datasize, h.dataend, h.data⟩

theorem step_writesInsideData (s t : State) (h : step s = .next t) : s.WritesInsideData t := by
  obtain ⟨-, ⟨-, rfl⟩ | ⟨-, -, rfl⟩ | ⟨-, i, -, hexec⟩⟩ := step_cases s t h
  · exact raise_writesInsideData s .segText s.pc
  · exact writesInsideData_of_advance s _ (raise_writesInsideData s.advance .illegal s.pc)
  · exact writesInsideData_of_advance s t (exec_writesInsideData i s.advance t hexec)

/-- A data write inside the segment keeps the canonical form and the bound on the indices. -/
theorem State.WritesInsideData.inv {s t : State} (hw : s.WritesInsideData t) (hs : s.Inv) :
    t.Inv := by
  obtain ⟨hsizes, htextWf, htextBelow, hdataWf, hdataBelow⟩ := hs
  unfold State.Inv
  rw [hw.text, hw.textsize, hw.datasize, hw.dataend]
  refine ⟨hsizes, htextWf, htextBelow, ?_⟩
  obtain hdata | ⟨a, v, ha, hdata⟩ := hw.data
  · rw [hdata]
    exact ⟨hdataWf, hdataBelow⟩
  · rw [hdata]
    exact ⟨Memory.wf_write s.data a.toNat v hdataWf,
      Memory.below_write s.data a.toNat s.datasize v (validData_toNat s a ha) hdataBelow⟩

/-- Settles O35: all a step can write is one data word at a valid address, and the invariant
survives that. -/
theorem everyStepKeepsTheMachineInvariant : Obligations.EveryStepKeepsTheMachineInvariant := by
  unfold Obligations.EveryStepKeepsTheMachineInvariant
  intro s t hs hstep
  exact (step_writesInsideData s t hstep).inv hs

end Sys2Proof.Machine
end

section
/-! The load operation (spec/10_state.md R24; spec/70_reset_and_hazards.md R170, R171), and the reset
state as the load of no program. -/

namespace Sys2Proof.Machine

theorem sizesOk_iff (textsize datasize dataend : Nat) :
    sizesOk textsize datasize dataend = true ↔
      textsize ≤ Config.sizeMax ∧ 1 ≤ datasize ∧ datasize ≤ Config.sizeMax ∧
        dataend ≤ datasize := by
  simp [sizesOk, and_assoc]

/-- All that is known of a state a load operation constructed: the bounds it tested, and each
component. -/
structure State.IsLoaded (s : State) (textsize datasize dataend : Nat) (text data : List Word) :
    Prop where
  sizes : sizesOk textsize datasize dataend = true
  textLength : text.length = textsize
  dataLength : data.length = datasize
  regs : s.regs = (Vector.replicate 16 0).set 15 (BitVec.ofNat 32 (datasize - 1))
  pc : s.pc = 0
  cc : s.cc = .unknown
  run : s.run = .running
  warnings : s.warnings = []
  textsize : s.textsize = textsize
  datasize : s.datasize = datasize
  dataend : s.dataend = dataend
  text : s.text = Memory.ofWords 0 text
  data : s.data = Memory.ofWords 0 data

theorem load_isLoaded {textsize datasize dataend : Nat} {text data : List Word} {s : State}
    (h : State.load textsize datasize dataend text data = some s) :
    s.IsLoaded textsize datasize dataend text data := by
  obtain ⟨hsizes, htext, hdata⟩ :=
    (load_isSome textsize datasize dataend text data).mp (Option.isSome_of_eq_some h)
  unfold State.load at h
  split at h
  · cases h
    exact ⟨hsizes, htext, hdata, rfl, rfl, rfl, rfl, rfl, rfl, rfl, rfl, rfl, rfl⟩
  · cases h

theorem load_eq_none_of_sizes {textsize datasize dataend : Nat} (text data : List Word)
    (h : sizesOk textsize datasize dataend = false) :
    State.load textsize datasize dataend text data = none := by
  simp [State.load, h]

theorem reset_isLoaded :
    State.reset.IsLoaded Config.resetTextsize Config.resetDatasize Config.resetDataend []
      (List.replicate Config.resetDatasize Config.unlistedWord) :=
  load_isLoaded load_reset

section
variable {s : State} {textsize datasize dataend : Nat} {text data : List Word}

theorem State.IsLoaded.reg_other (h : s.IsLoaded textsize datasize dataend text data) (r : Reg)
    (hr : r ≠ spReg) : s.reg r = 0 := by
  have hne : ¬ 15 = r.val := fun e => hr (Fin.ext e.symm)
  simp [State.reg, h.regs, hne]

theorem State.IsLoaded.sp_eq (h : s.IsLoaded textsize datasize dataend text data) :
    s.sp = BitVec.ofNat 32 (datasize - 1) := by
  simp [State.sp, State.reg, spReg, h.regs]

/-- The bounds of spec/00_scope.md R6 keep the sign bit of the first stack pointer clear. -/
theorem State.IsLoaded.sp_toInt (h : s.IsLoaded textsize datasize dataend text data) :
    s.sp.toInt = (datasize : Int) - 1 := by
  obtain ⟨-, hlow, hhigh, -⟩ := (sizesOk_iff textsize datasize dataend).mp h.sizes
  unfold Config.sizeMax at hhigh
  have htoNat : s.sp.toNat = datasize - 1 := by
    rw [h.sp_eq, BitVec.toNat_ofNat, Nat.mod_eq_of_lt (by omega)]
  rw [BitVec.toInt_eq_toNat_of_lt (by omega), htoNat]
  omega

/-- An image reads back word by word. -/
theorem Memory.read_ofWords_of_getElem? (ws : List Word) (i : Nat) (w : Word)
    (h : ws[i]? = some w) : Memory.read (Memory.ofWords 0 ws) i = w := by
  have hread := Memory.read_ofWords 0 ws i
  rwa [Nat.zero_add, List.getD_eq_getElem?_getD, h, Option.getD_some] at hread

theorem State.IsLoaded.inv (h : s.IsLoaded textsize datasize dataend text data) : s.Inv := by
  have htext := Memory.below_ofWords 0 text
  have hdata := Memory.below_ofWords 0 data
  rw [Nat.zero_add, h.textLength] at htext
  rw [Nat.zero_add, h.dataLength] at hdata
  unfold State.Inv
  rw [h.textsize, h.datasize, h.dataend, h.text, h.data]
  exact ⟨h.sizes, Memory.wf_ofWords text, htext, Memory.wf_ofWords data, hdata⟩

end

/-- Before the first warning and the first fault the reports claim nothing. -/
theorem reportsOk_of_running_of_no_warnings (s : State) (hr : s.run = .running)
    (hw : s.warnings = []) : s.reportsOk = true := by
  simp [State.reportsOk, hr, hw]

/-- Settles O34: the reset state is a loaded one, and a load constructs the invariant. -/
theorem resetMeetsTheMachineInvariant : Obligations.ResetMeetsTheMachineInvariant := by
  unfold Obligations.ResetMeetsTheMachineInvariant
  exact reset_isLoaded.inv

/-- Settles O36: a running state without a warning reports nothing. -/
theorem resetReportsNothing : Obligations.ResetReportsNothing := by
  unfold Obligations.ResetReportsNothing
  exact reportsOk_of_running_of_no_warnings _ reset_isLoaded.run reset_isLoaded.warnings

/-- Settles O54: the values every load gives, at the load of no program. -/
theorem resetStateHasTheResetValues : Obligations.ResetStateHasTheResetValues := by
  unfold Obligations.ResetStateHasTheResetValues
  have h := reset_isLoaded
  rw [h.datasize]
  exact ⟨h.reg_other, h.sp_toInt, h.pc, h.cc, h.run, h.warnings⟩

/-- Settles O53: a load answers exactly when the sizes are in bounds and the images complete, and
then with the state of R24. -/
theorem loadOperationMakesTheResetState : Obligations.LoadOperationMakesTheResetState := by
  unfold Obligations.LoadOperationMakesTheResetState
  intro textsize datasize dataend text data htext hdata
  refine ⟨fun hsizes => ?_, load_eq_none_of_sizes text data⟩
  obtain ⟨s, hs⟩ := Option.isSome_iff_exists.mp
    ((load_isSome textsize datasize dataend text data).mpr ⟨hsizes, htext, hdata⟩)
  have h := load_isLoaded hs
  have hreadText : ∀ (i : Nat) (w : Word), text[i]? = some w → Memory.read s.text i = w := by
    rw [h.text]
    exact Memory.read_ofWords_of_getElem? text
  have hreadData : ∀ (i : Nat) (w : Word), data[i]? = some w → Memory.read s.data i = w := by
    rw [h.data]
    exact Memory.read_ofWords_of_getElem? data
  exact ⟨s, hs, h.reg_other, h.sp_toInt, h.pc, h.cc, h.run, h.warnings, h.textsize, h.datasize,
    h.dataend, hreadText, hreadData, h.inv⟩

end Sys2Proof.Machine
end

section
/-! Which instructions write the registers, `cc`, the pc and `sp` (spec/10_state.md R13, R15, R17,
R25), read off the effect of each instruction. -/

namespace Sys2Proof.Machine

theorem step_of_halted (s : State) (h : s.run = .halted) : step s = .fault .stoppedHalted := by
  simp only [step, h]

theorem step_of_faulted (s : State) (k : FatalKind) (a : Int) (h : s.run = .faulted k a) :
    step s = .fault (.stoppedFaulted k a) := by
  simp only [step, h]

/-- Settles O32: the step looks at `run` before it fetches. -/
theorem noStepFromATerminalState : Obligations.NoStepFromATerminalState := by
  unfold Obligations.NoStepFromATerminalState
  exact ⟨step_of_halted, step_of_faulted⟩

/-- Bits 5 to 0 of a word are the opcode number of the instruction it decodes to. -/
theorem opcode_bits_of_decode {w : Word} {i : Instr} (h : decode w = .ok i) :
    w.extractLsb' 0 6 = opcodeOf i :=
  (opcodeOf_of_decode w i h).symm

/-! ### The frame of LOAD, ADD and SUB -/

/-- A LOAD, ADD or SUB ends in the write-back of its result or in a fatal error. -/
theorem exec_loadAddSub_cases (i : Instr) (r : Reg) (src : Operand) (s t : State)
    (hi : i = .load r src ∨ i = .add r src ∨ i = .sub r src) (h : exec i s = .next t) :
    (∃ v, t = s.writeBack r v) ∨ ∃ k, t = s.raise k s.instrAddr := by
  rcases exec_cases i s t h with he | ⟨k, -, ht⟩
  · left
    obtain rfl | rfl | rfl := hi
    · cases he with | load => exact ⟨_, rfl⟩
    · cases he with | add => exact ⟨_, rfl⟩
    · cases he with | sub => exact ⟨_, rfl⟩
  · exact .inr ⟨k, ht⟩

/-- Settles O25: a write-back writes one register and `cc`, a fatal error `run` alone. -/
theorem loadAddSubChangeOneRegisterAndCc : Obligations.LoadAddSubChangeOneRegisterAndCc := by
  unfold Obligations.LoadAddSubChangeOneRegisterAndCc
  intro i r src s t hi h
  obtain ⟨v, rfl⟩ | ⟨k, rfl⟩ := exec_loadAddSub_cases i r src s t hi h
  · have hreg (q : Reg) (hq : q ≠ r) : (s.writeBack r v).reg q = s.reg q := by
      rw [reg_writeBack, if_neg hq]
    exact ⟨hreg, fun _ => rfl, rfl, rfl, rfl, rfl, rfl, rfl⟩
  · exact ⟨fun _ _ => rfl, fun _ => rfl, rfl, rfl, rfl, rfl, rfl, rfl⟩

/-! ### The writers of cc -/

/-- An instruction keeps `cc`, or it is one of the three that set it from a sign. -/
theorem exec_cc (i : Instr) (s t : State) (h : exec i s = .next t) :
    t.cc = s.cc ∨ (t.cc ≠ .unknown ∧ (opcodeOf i = 2 ∨ opcodeOf i = 4 ∨ opcodeOf i = 5)) := by
  rcases exec_cases i s t h with he | ⟨k, -, rfl⟩
  · cases he with
    | nop | halt | store | branchTaken | branchNotTaken | callTaken | callNotTaken | ret | push
    | pushStatic | pop => exact .inl rfl
    | load r src v => exact .inr ⟨sign_ne_unknown v, .inl rfl⟩
    | add r src v => exact .inr ⟨sign_ne_unknown (s.reg r + v), .inr (.inl rfl)⟩
    | sub r src v => exact .inr ⟨sign_ne_unknown (s.reg r - v), .inr (.inr rfl)⟩
  · exact .inl rfl

theorem step_cc (s t : State) (h : step s = .next t) :
    t.cc = s.cc ∨ (t.cc ≠ .unknown ∧ ((s.textAt s.pc).extractLsb' 0 6 = 2 ∨
      (s.textAt s.pc).extractLsb' 0 6 = 4 ∨ (s.textAt s.pc).extractLsb' 0 6 = 5)) := by
  obtain ⟨-, ⟨-, rfl⟩ | ⟨-, -, rfl⟩ | ⟨-, i, hd, hexec⟩⟩ := step_cases s t h
  · exact .inl rfl
  · exact .inl rfl
  · rw [opcode_bits_of_decode hd]
    exact exec_cc i s.advance t hexec

/-- Settles O42: a step keeps `cc`, or it runs a writer of `cc`, which gives a known value. -/
theorem onlyLoadAddSubWriteCc : Obligations.OnlyLoadAddSubWriteCc := by
  unfold Obligations.OnlyLoadAddSubWriteCc
  intro s t _ hstep
  obtain hkept | ⟨hknown, hop⟩ := step_cc s t hstep
  · exact ⟨fun hu => hkept ▸ hu, fun hne => absurd hkept hne⟩
  · exact ⟨fun hu => absurd hu hknown, fun _ => hop⟩

/-! ### The writers of the pc -/

/-- An instruction leaves the pc at `a + 1`, or it is a jump that completes, which keeps `run`. -/
theorem exec_pc (i : Instr) (s t : State) (h : exec i s = .next t) :
    t.pc = s.pc ∨ (t.run = s.run ∧ (opcodeOf i = 6 ∨ opcodeOf i = 7 ∨ opcodeOf i = 8)) := by
  rcases exec_cases i s t h with he | ⟨k, -, rfl⟩
  · cases he with
    | nop | halt | load | store | add | sub | branchNotTaken | callNotTaken | push | pushStatic
    | pop => exact .inl rfl
    | branchTaken => exact .inr ⟨rfl, .inl rfl⟩
    | callTaken => exact .inr ⟨rfl, .inr (.inl rfl)⟩
    | ret => exact .inr ⟨rfl, .inr (.inr rfl)⟩
  · exact .inl rfl

/-- Settles O43: past the fetch the pc is `a + 1` until a jump that completes writes it. -/
theorem onlyJumpsMoveThePcElsewhere : Obligations.OnlyJumpsMoveThePcElsewhere := by
  unfold Obligations.OnlyJumpsMoveThePcElsewhere
  intro s t hr hstep hpc
  obtain ⟨-, ⟨hv, rfl⟩ | ⟨-, -, rfl⟩ | ⟨hv, i, hd, hexec⟩⟩ := step_cases s t hstep
  · exact .inl ⟨hv, rfl⟩
  · exact absurd rfl hpc
  · rw [opcode_bits_of_decode hd]
    obtain hnext | ⟨hrun, hop⟩ := exec_pc i s.advance t hexec
    · exact absurd hnext hpc
    · exact .inr ⟨hv, hrun.trans hr, hop⟩

/-! ### The stack pointer after a stack operation -/

/-- The value a push gives `sp` is a valid data index (spec/45_push_pop.md R130). -/
theorem pushOk_validData_pred (s : State) (h : s.pushOk = true) :
    s.validData (s.sp - 1) = true := by
  rw [pushOk_iff] at h
  have hlt := BitVec.two_mul_toInt_lt (x := s.sp)
  have hpred : (s.sp - 1).toInt = s.sp.toInt - 1 := by
    rw [BitVec.toInt_sub, show (1 : Word).toInt = 1 from rfl]
    exact Int.bmod_eq_of_le (by omega) (by omega)
  rw [validData_iff]
  omega

/-- Each of the four writes `sp` with a value that its stack test covers. -/
theorem effect_sp_validData (s t : State) (i : Instr) (h : Effect s i t)
    (hi : i = .ret ∨ (∃ src, i = .push src) ∨ (∃ dst, i = .pop dst) ∨
      (∃ c target, i = .call c target ∧ shouldJump s.cc c = .ok true)) :
    s.validData t.sp = true := by
  obtain rfl | ⟨src, rfl⟩ | ⟨dst, rfl⟩ | ⟨c, target, rfl, hc⟩ := hi
  · cases h with
    | ret hp => rwa [State.sp_setSp]
  · cases h with
    | push _ v hp | pushStatic _ v hp =>
      simpa using pushOk_validData_pred s hp
  · cases h with
    | pop _ ea ha hp => rwa [State.sp_setSp]
  · cases h with
    | callTaken _ _ ea ha hj hp => simpa using pushOk_validData_pred s hp
    | callNotTaken _ _ ea ha hj => cases hc.symm.trans hj

/-- Settles O49: a stack operation that ends running raised nothing, so its stack test passed. -/
theorem stackOperationsLeaveSpInRange : Obligations.StackOperationsLeaveSpInRange := by
  unfold Obligations.StackOperationsLeaveSpInRange
  intro i s t _ _ hi h hrun
  rcases exec_cases i s t h with he | ⟨k, -, rfl⟩
  · rw [(effect_writesInsideData s t i he).datasize]
    exact (validData_iff s t.sp).mp (effect_sp_validData s t i he hi)
  · cases hrun

end Sys2Proof.Machine
end

section
/-! What an instruction does not read (spec/10_state.md R17, R19): two runs that differ in `dataend`,
or in `cc`, end alike. -/

namespace Sys2Proof.Machine

/-- The tests of an instruction read the registers and `datasize`, and `cc` in BRANCH and CALL
alone. -/
theorem raises_congr {s u : State} {i : Instr} {k : FatalKind} (hr : u.regs = s.regs)
    (hs : u.datasize = s.datasize)
    (hc : u.cc = s.cc ∨ (∀ b target, i ≠ .branch b target) ∧ ∀ b target, i ≠ .call b target)
    (h : Raises s i k) : Raises u i k := by
  have hdata (ad : Addr) : u.validData (u.resolve ad) = s.validData (s.resolve ad) := by
    rw [resolve_congr s u hr, validData_congr s u hs]
  cases h with
  | illop => exact .illop
  | load r ad hd => exact .load r ad ((hdata ad).trans hd)
  | storeImm r v => exact .storeImm r v
  | store r ad hd => exact .store r ad ((hdata ad).trans hd)
  | add r ad hd => exact .add r ad ((hdata ad).trans hd)
  | sub r ad hd => exact .sub r ad ((hdata ad).trans hd)
  | branchImm c v => exact .branchImm c v
  | branchCond c ad hcond =>
    have hcc := hc.resolve_right fun hn => hn.1 _ _ rfl
    exact .branchCond c ad (by rwa [hcc])
  | callImm c v => exact .callImm c v
  | callCond c ad hcond =>
    have hcc := hc.resolve_right fun hn => hn.2 _ _ rfl
    exact .callCond c ad (by rwa [hcc])
  | callStack c ad hj hp =>
    have hcc := hc.resolve_right fun hn => hn.2 _ _ rfl
    exact .callStack c ad (by rwa [hcc]) ((pushOk_congr s u hr hs).trans hp)
  | ret hp => exact .ret ((popOk_congr s u hr hs).trans hp)
  | pushStack src hp => exact .pushStack src ((pushOk_congr s u hr hs).trans hp)
  | pushData ad hp hd =>
    exact .pushData ad ((pushOk_congr s u hr hs).trans hp) ((hdata ad).trans hd)
  | popImm v => exact .popImm v
  | popStack ad hp => exact .popStack ad ((popOk_congr s u hr hs).trans hp)
  | popData ad hp hd =>
    exact .popData ad ((popOk_congr s u hr hs).trans hp) ((hdata ad).trans hd)

/-- A PUSH whose tests pass completes, and `dataend` decides the warning log alone. -/
theorem effect_push_exists (s : State) (src : Operand) (v : Word) (hp : s.pushOk = true)
    (hv : s.operand src = .ok v) :
    ∃ ws, Effect s (.push src)
      { (s.setData s.sp v).setSp (s.sp - 1) with warnings := ws } := by
  by_cases hw : (s.sp - 1).toInt < s.dataend
  · exact ⟨_, .pushStatic src v hp hv hw⟩
  · exact ⟨_, .push src v hp hv hw⟩

/-! ### dataend -/

theorem effect_with_dataend (s t : State) (i : Instr) (n : Nat) (h : Effect s i t) :
    ∃ u, Effect { s with dataend := n } i u ∧
      { u with dataend := t.dataend, warnings := t.warnings } = t ∧
      (u.warnings = t.warnings ∨ opcodeOf i = 9) := by
  have hop := operand_congr s { s with dataend := n } rfl rfl rfl
  have had := address_congr s { s with dataend := n } rfl
  cases h with
  | nop => exact ⟨_, .nop, rfl, .inl rfl⟩
  | halt => exact ⟨_, .halt, rfl, .inl rfl⟩
  | load r src v hv => exact ⟨_, .load r src v ((hop src).trans hv), rfl, .inl rfl⟩
  | store r dst ea ha hd =>
    exact ⟨_, .store r dst ea ((had dst).trans ha) hd, rfl, .inl rfl⟩
  | add r src v hv => exact ⟨_, .add r src v ((hop src).trans hv), rfl, .inl rfl⟩
  | sub r src v hv => exact ⟨_, .sub r src v ((hop src).trans hv), rfl, .inl rfl⟩
  | branchTaken c target ea ha hj =>
    exact ⟨_, .branchTaken c target ea ((had target).trans ha) hj, rfl, .inl rfl⟩
  | branchNotTaken c target ea ha hj =>
    exact ⟨_, .branchNotTaken c target ea ((had target).trans ha) hj, rfl, .inl rfl⟩
  | callTaken c target ea ha hj hp =>
    exact ⟨_, .callTaken c target ea ((had target).trans ha) hj hp, rfl, .inl rfl⟩
  | callNotTaken c target ea ha hj =>
    exact ⟨_, .callNotTaken c target ea ((had target).trans ha) hj, rfl, .inl rfl⟩
  | ret hp => exact ⟨_, .ret hp, rfl, .inl rfl⟩
  | push src v hp hv hw | pushStatic src v hp hv hw =>
    obtain ⟨ws, he⟩ := effect_push_exists { s with dataend := n } src v hp ((hop src).trans hv)
    exact ⟨_, he, rfl, .inr rfl⟩
  | pop dst ea ha hp hd =>
    exact ⟨_, .pop dst ea ((had dst).trans ha) hp hd, rfl, .inl rfl⟩

theorem exec_with_dataend (i : Instr) (s t : State) (n : Nat) (h : exec i s = .next t) :
    ∃ u, exec i { s with dataend := n } = .next u ∧
      { u with dataend := t.dataend, warnings := t.warnings } = t ∧
      (u.warnings = t.warnings ∨ opcodeOf i = 9) := by
  rcases exec_cases i s t h with he | ⟨k, hk, rfl⟩
  · obtain ⟨u, hu, hsame, hlog⟩ := effect_with_dataend s t i n he
    exact ⟨u, exec_of_effect _ u i hu, hsame, hlog⟩
  · have hk' : Raises { s with dataend := n } i k := raises_congr (s := s) rfl rfl (.inl rfl) hk
    exact ⟨_, exec_of_raises _ i k hk', rfl, .inl rfl⟩

/-- Settles O47: the fetch does not read `dataend`, and of the instructions only PUSH does. -/
theorem dataendOnlyDecidesTheWarning : Obligations.DataendOnlyDecidesTheWarning := by
  unfold Obligations.DataendOnlyDecidesTheWarning
  intro s t n hstep
  obtain ⟨hr, ⟨hv, rfl⟩ | ⟨hv, ⟨e, hd⟩, rfl⟩ | ⟨hv, i, hd, hexec⟩⟩ := step_cases s t hstep
  · exact ⟨_, step_of_pc_invalid { s with dataend := n } hr hv, rfl, .inl rfl⟩
  · exact ⟨_, step_of_undecodable { s with dataend := n } e hr hv hd, rfl, .inl rfl⟩
  · obtain ⟨u, hu, hsame, hlog⟩ := exec_with_dataend i s.advance t n hexec
    have hstep' := step_of_decode { s with dataend := n } i hr hv hd
    refine ⟨u, hstep'.trans hu, hsame, hlog.imp_right fun hop => ?_⟩
    exact ⟨hv, (opcode_bits_of_decode hd).trans hop⟩

/-! ### cc -/

theorem effect_with_cc (s t : State) (i : Instr) (c : CC) (hb : ∀ b target, i ≠ .branch b target)
    (hc : ∀ b target, i ≠ .call b target) (h : Effect s i t) :
    ∃ u, Effect { s with cc := c } i u ∧ { u with cc := t.cc } = t ∧
      (u.cc = t.cc ∨ (t.cc = s.cc ∧ u.cc = c)) := by
  have hop := operand_congr s { s with cc := c } rfl rfl rfl
  have had := address_congr s { s with cc := c } rfl
  cases h with
  | nop => exact ⟨_, .nop, rfl, .inr ⟨rfl, rfl⟩⟩
  | halt => exact ⟨_, .halt, rfl, .inr ⟨rfl, rfl⟩⟩
  | load r src v hv => exact ⟨_, .load r src v ((hop src).trans hv), rfl, .inl rfl⟩
  | store r dst ea ha hd =>
    exact ⟨_, .store r dst ea ((had dst).trans ha) hd, rfl, .inr ⟨rfl, rfl⟩⟩
  | add r src v hv => exact ⟨_, .add r src v ((hop src).trans hv), rfl, .inl rfl⟩
  | sub r src v hv => exact ⟨_, .sub r src v ((hop src).trans hv), rfl, .inl rfl⟩
  | branchTaken b target | branchNotTaken b target => exact absurd rfl (hb b target)
  | callTaken b target | callNotTaken b target => exact absurd rfl (hc b target)
  | ret hp => exact ⟨_, .ret hp, rfl, .inr ⟨rfl, rfl⟩⟩
  | push src v hp hv hw =>
    exact ⟨_, .push src v hp ((hop src).trans hv) hw, rfl, .inr ⟨rfl, rfl⟩⟩
  | pushStatic src v hp hv hw =>
    exact ⟨_, .pushStatic src v hp ((hop src).trans hv) hw, rfl, .inr ⟨rfl, rfl⟩⟩
  | pop dst ea ha hp hd =>
    exact ⟨_, .pop dst ea ((had dst).trans ha) hp hd, rfl, .inr ⟨rfl, rfl⟩⟩

/-- Settles O48: without the jumps no test and no effect reads `cc`. -/
theorem onlyJumpsReadCc : Obligations.OnlyJumpsReadCc := by
  unfold Obligations.OnlyJumpsReadCc
  intro i s t c hb hc h
  rcases exec_cases i s t h with he | ⟨k, hk, rfl⟩
  · obtain ⟨u, hu, hsame, hcc⟩ := effect_with_cc s t i c hb hc he
    exact ⟨u, exec_of_effect _ u i hu, hsame, hcc⟩
  · have hk' : Raises { s with cc := c } i k := raises_congr (s := s) rfl rfl (.inr ⟨hb, hc⟩) hk
    exact ⟨_, exec_of_raises _ i k hk', rfl, .inr ⟨rfl, rfl⟩⟩

end Sys2Proof.Machine
end

section
/-! The memories and their range tests (spec/20_memory.md R33, R35, R36, R40, R42): the unsigned
form of the tests, a read of the latest write, the instructions that write no data, and the
read-only text. -/

namespace Sys2Proof.Machine

/-! ### The range tests, unsigned -/

/-- A size in the bounds of spec/00_scope.md R6 is below `2^31`, so a word whose sign bit is set
fails both forms of the range test. -/
theorem signed_range_iff_toNat_lt (v : Word) (n : Nat) (hn : n ≤ Config.sizeMax) :
    (0 ≤ v.toInt ∧ v.toInt < n) ↔ v.toNat < n := by
  unfold Config.sizeMax at hn
  by_cases hsign : 2 * v.toNat < 2 ^ 32
  · rw [BitVec.toInt_eq_toNat_of_lt hsign]
    omega
  · have hneg : v.toInt < 0 := BitVec.toInt_neg_iff.mpr (by omega)
    omega

/-- Settles O8: each range test is the signed comparison with its size. -/
theorem signedAndUnsignedRangeTestsAgree : Obligations.SignedAndUnsignedRangeTestsAgree := by
  unfold Obligations.SignedAndUnsignedRangeTestsAgree
  intro s v htext hdata
  exact ⟨(validData_iff s v).trans (signed_range_iff_toNat_lt v s.datasize hdata),
    (validText_iff s v).trans (signed_range_iff_toNat_lt v s.textsize htext)⟩

/-! ### The instructions that write no data -/

/-- All that ILLOP, NOP, HALT, RET and BRANCH can do: nothing, the effect of a HALT, of a RET or of
a taken BRANCH, or a fatal error. -/
theorem exec_controlSystem_cases (i : Instr) (s t : State)
    (hi : i = .illop ∨ i = .nop ∨ i = .halt ∨ i = .ret ∨ ∃ c target, i = .branch c target)
    (h : exec i s = .next t) :
    t = s ∨ (i = .halt ∧ t = (s.warn .halt s.instrAddr).setRun .halted) ∨
      (i = .ret ∧ t = (s.setPc (s.dataAt (s.sp + 1))).setSp (s.sp + 1)) ∨
      (∃ c target ea, i = .branch c target ∧ t = s.setPc ea) ∨
      ∃ k, t = s.raise k s.instrAddr := by
  rcases exec_cases i s t h with he | ⟨k, -, ht⟩
  · obtain rfl | rfl | rfl | rfl | ⟨c, target, rfl⟩ := hi
    · cases he
    · cases he with | nop => exact .inl rfl
    · cases he with | halt => exact .inr (.inl ⟨rfl, rfl⟩)
    · cases he with | ret => exact .inr (.inr (.inl ⟨rfl, rfl⟩))
    · cases he with
      | branchTaken => exact .inr (.inr (.inr (.inl ⟨_, _, _, rfl, rfl⟩)))
      | branchNotTaken => exact .inl rfl
  · exact .inr (.inr (.inr (.inr ⟨k, ht⟩)))

/-- Settles O29: none of these outcomes writes a data word or `cc`; RET alone writes `sp`, RET and
BRANCH the pc, HALT the warning log. -/
theorem controlAndSystemWriteNoData : Obligations.ControlAndSystemWriteNoData := by
  unfold Obligations.ControlAndSystemWriteNoData
  intro i s t hi h
  obtain rfl | ⟨rfl, rfl⟩ | ⟨rfl, rfl⟩ | ⟨c, target, ea, rfl, rfl⟩ | ⟨k, rfl⟩ :=
    exec_controlSystem_cases i s t hi h
  · exact ⟨fun _ => rfl, rfl, rfl, rfl, rfl, rfl, fun _ _ => rfl, fun _ => rfl, fun _ => rfl⟩
  · exact ⟨fun _ => rfl, rfl, rfl, rfl, rfl, rfl, fun _ _ => rfl, fun _ => rfl,
      fun hne => absurd rfl hne⟩
  · refine ⟨fun _ => rfl, rfl, rfl, rfl, rfl, rfl, fun q hq => ?_, fun hpc => ?_, fun _ => rfl⟩
    · exact State.reg_setSp_other _ q _ (hq.resolve_right fun hne => hne rfl)
    · simp at hpc
  · refine ⟨fun _ => rfl, rfl, rfl, rfl, rfl, rfl, fun _ _ => rfl, fun hpc => ?_, fun _ => rfl⟩
    simp at hpc
  · exact ⟨fun _ => rfl, rfl, rfl, rfl, rfl, rfl, fun _ _ => rfl, fun _ => rfl, fun _ => rfl⟩

/-! ### Runs, and the read-only text -/

theorem run_succ_eq_next (M : Host.Core) (n : Nat) (s t : M.State)
    (h : M.run (n + 1) s = .next t) : ∃ u, M.step s = .next u ∧ M.run n u = .next t := by
  unfold Host.Core.run at h
  split at h
  · exact ⟨_, ‹_›, h⟩
  · cases h
  · cases h

/-- What every step keeps, every run keeps. -/
theorem run_keeps (M : Host.Core) {P : M.State → Prop}
    (hstep : ∀ s t, P s → M.step s = .next t → P t) (n : Nat) (s t : M.State) (hs : P s)
    (h : M.run n s = .next t) : P t := by
  induction n generalizing s with
  | zero =>
    cases h
    exact hs
  | succ n ih =>
    obtain ⟨u, hu, hrun⟩ := run_succ_eq_next M n s t h
    exact ih u (hstep s u hs hu) hrun

/-- Two states of one load: the text and the three sizes are the same. -/
def State.SameProgram (s t : State) : Prop :=
  t.text = s.text ∧ t.textsize = s.textsize ∧ t.datasize = s.datasize ∧ t.dataend = s.dataend

theorem step_keeps_sameProgram (s u t : State) (hu : s.SameProgram u) (h : step u = .next t) :
    s.SameProgram t := by
  obtain ⟨htext, htextsize, hdatasize, hdataend⟩ := hu
  have hw := step_writesInsideData u t h
  exact ⟨hw.text.trans htext, hw.textsize.trans htextsize, hw.datasize.trans hdatasize,
    hw.dataend.trans hdataend⟩

/-- Settles O44: all a step can write of the memories is a data word. -/
theorem noRunChangesTheText : Obligations.NoRunChangesTheText := by
  unfold Obligations.NoRunChangesTheText
  intro n s t h
  exact run_keeps Sys2Proof.core (step_keeps_sameProgram s) n s t ⟨rfl, rfl, rfl, rfl⟩ h

/-! ### A LOAD of the stored word -/

theorem dataAt_setData_same (s : State) (a v : Word) (hwf : Memory.wf s.data = true) :
    (s.setData a v).dataAt a = v :=
  Memory.read_write_same s.data a.toNat v hwf

theorem exec_store_of_validData (r : Reg) (ad : Addr) (s : State)
    (hv : s.validData (s.resolve ad) = true) :
    exec (.store r (.mem ad)) s = .next (s.setData (s.resolve ad) (s.reg r)) :=
  exec_of_effect _ _ _ (.store r (.mem ad) (s.resolve ad) rfl hv)

theorem exec_load_of_validData (r : Reg) (ad : Addr) (s : State)
    (hv : s.validData (s.resolve ad) = true) :
    exec (.load r (.mem ad)) s = .next (s.writeBack r (s.dataAt (s.resolve ad))) :=
  exec_of_effect _ _ _ (.load r (.mem ad) _ ((operand_eq_ok s _ _).mpr (.inr ⟨ad, rfl, hv, rfl⟩)))

/-- Settles O52: the STORE changes neither the registers nor `datasize`, so the LOAD's address is
valid too, and it reads the word just written. -/
theorem loadReadsTheStoredWord : Obligations.LoadReadsTheStoredWord := by
  unfold Obligations.LoadReadsTheStoredWord
  intro r q ad ad' s t hwf hv hstore hsame
  rw [exec_store_of_validData r ad s hv, Host.Outcome.next.injEq] at hstore
  subst hstore
  have hload := exec_load_of_validData q ad' (s.setData (s.resolve ad) (s.reg r))
    (hsame.symm ▸ hv)
  rw [hsame, dataAt_setData_same s _ _ hwf] at hload
  exact hload

end Sys2Proof.Machine
end

section
/-! The decoder and the encoder against each other (spec/30_encoding.md R55, R56, R58, R59): what
the decoder reads from the fields of a word, and what the used bits keep of them. -/

namespace Sys2Proof

/-! ### The decoder, said once -/

/-- The operands of the instruction are those the fields hold (R54, R55). -/
def Instr.OperandsFrom (f : Fields) : Instr → Prop
  | .illop | .nop | .ret | .halt => True
  | .load r o | .store r o | .add r o | .sub r o =>
    r = regOfField f.regOrCond ∧ o = operandOfFields f
  | .branch c o | .call c o => c = condOfField f.regOrCond ∧ o = operandOfFields f
  | .push o | .pop o => o = operandOfFields f

theorem operandsFrom_of_decode (w : Word) (i : Instr) (h : decode w = .ok i) :
    i.OperandsFrom (decodeFields w) := by
  unfold decode at h
  simp only at h
  split at h
  case h_13 => cases h
  all_goals
    cases h
    simp [Instr.OperandsFrom]

/-- A word holds an instruction exactly when its opcode field is the instruction's number and its
other fields hold the operands. -/
theorem decode_eq_ok_iff (w : Word) (i : Instr) :
    decode w = .ok i ↔
      opcodeOf i = (decodeFields w).opcode ∧ i.OperandsFrom (decodeFields w) := by
  refine ⟨fun h => ⟨Machine.opcodeOf_of_decode w i h, operandsFrom_of_decode w i h⟩, ?_⟩
  rintro ⟨hop, hargs⟩
  cases i with
  | illop | nop | ret | halt => simp [decode, ← hop, opcodeOf]
  | load r o | store r o | add r o | sub r o | branch c o | call c o =>
    obtain ⟨rfl, rfl⟩ := hargs
    simp [decode, ← hop, opcodeOf]
  | push o | pop o =>
    obtain rfl := hargs
    simp [decode, ← hop, opcodeOf]

/-- All the decoder can answer: the refusal of a number from 12 on, or an instruction. -/
theorem decode_cases (w : Word) :
    (12 ≤ (decodeFields w).opcode.toNat ∧
        decode w = .error (.opcodeOutOfRange (decodeFields w).opcode)) ∨
      ((decodeFields w).opcode.toNat ≤ 11 ∧ ∃ i, decode w = .ok i) := by
  unfold decode
  simp only
  split
  case h_13 =>
    refine .inl ⟨?_, rfl⟩
    simp only [imp_false] at *
    omega
  all_goals exact .inr ⟨by omega, _, rfl⟩

theorem opcode_toNat (w : Word) : (decodeFields w).opcode.toNat = w.toNat % 64 := by
  simp [decodeFields]

/-! ### Decoding what was encoded -/

theorem opcode_encode (i : Instr) : (decodeFields (encode i)).opcode = opcodeOf i := by
  cases i with
  | illop => exact Laws.EncodesOpcode.illop.1
  | nop => exact Laws.EncodesOpcode.nop.1
  | load r o => exact (Laws.EncodesOpcode.load r o).1
  | store r o => exact (Laws.EncodesOpcode.store r o).1
  | add r o => exact (Laws.EncodesOpcode.add r o).1
  | sub r o => exact (Laws.EncodesOpcode.sub r o).1
  | branch c o => exact (Laws.EncodesOpcode.branch c o).1
  | call c o => exact (Laws.EncodesOpcode.call c o).1
  | ret => exact Laws.EncodesOpcode.ret.1
  | push o => exact (Laws.EncodesOpcode.push o).1
  | pop o => exact (Laws.EncodesOpcode.pop o).1
  | halt => exact Laws.EncodesOpcode.halt.1

/-- No operand is lost on the way through the word: the register or condition field and the operand
fields each read back. -/
theorem operandsFrom_encode (i : Instr) : i.OperandsFrom (decodeFields (encode i)) := by
  cases i with
  | illop | nop | ret | halt => trivial
  | load r o | store r o | add r o | sub r o =>
    simp [Instr.OperandsFrom, encode, operandOfFields_encodeOperand]
  | branch c o | call c o =>
    simp [Instr.OperandsFrom, encode, operandOfFields_encodeOperand, condOfField_fieldOfCond]
  | push o | pop o => simp [Instr.OperandsFrom, encode, operandOfFields_encodeOperand]

/-- Settles O1: the word of an instruction holds its number and its operands, which is all the
decoder asks. -/
theorem decodeOfEncodeIsTheInstruction : Obligations.DecodeOfEncodeIsTheInstruction := by
  unfold Obligations.DecodeOfEncodeIsTheInstruction
  intro i
  exact (decode_eq_ok_iff (encode i) i).mpr ⟨(opcode_encode i).symm, operandsFrom_encode i⟩

/-! ### Encoding what was decoded -/

theorem encodeFields_and (op op' : BitVec 6) (im im' ix ix' : BitVec 1) (rc rc' : BitVec 4)
    (pay pay' : BitVec 20) :
    encodeFields op im ix rc pay &&& encodeFields op' im' ix' rc' pay' =
      encodeFields (op &&& op') (im &&& im') (ix &&& ix') (rc &&& rc') (pay &&& pay') := by
  refine BitVec.eq_of_getLsbD_eq fun i hi => ?_
  rw [BitVec.getLsbD_and, getLsbD_encodeFields _ _ _ _ _ i hi, getLsbD_encodeFields _ _ _ _ _ i hi,
    getLsbD_encodeFields _ _ _ _ _ i hi]
  split_ifs <;> exact BitVec.getLsbD_and.symm

/-- A mask acts on each field of a word alone. -/
theorem and_encodeFields (w : Word) (op : BitVec 6) (im ix : BitVec 1) (rc : BitVec 4)
    (pay : BitVec 20) :
    w &&& encodeFields op im ix rc pay =
      encodeFields ((decodeFields w).opcode &&& op) ((decodeFields w).immediate &&& im)
        ((decodeFields w).indexed &&& ix) ((decodeFields w).regOrCond &&& rc)
        ((decodeFields w).absAddr &&& pay) := by
  rw [← encodeFields_and, encodeFields_decodeFields]

/-- The canonical operand fields of a word: `indexed` is kept only where `immediate` is clear
(R54). -/
theorem encodeOperand_operandOfFields (w : Word) (op : BitVec 6) (rc : BitVec 4) :
    encodeOperand op rc (operandOfFields (decodeFields w)) =
      encodeFields op (decodeFields w).immediate
        (if (decodeFields w).immediate = 1 then 0 else (decodeFields w).indexed) rc
        (decodeFields w).absAddr := by
  have hzero (b : BitVec 1) (hb : ¬ b = 1) : b = 0 := (BitVec.eq_zero_or_eq_one b).resolve_right hb
  unfold operandOfFields addrOfFields
  split
  · rename_i him
    rw [him]
    rfl
  · rename_i him
    rw [hzero _ him]
    split
    · rename_i hix
      rw [hix, ← indexPayload_decodeFields w]
      rfl
    · rename_i hix
      rw [hzero _ hix]
      rfl

/-- The mask of the opcode and the operand fields of `w`, with `rc` as the mask of `reg_or_cond`
(R55). -/
def operandMask (w : Word) (rc : BitVec 4) : Word :=
  encodeFields (BitVec.allOnes 6) 1 (if (decodeFields w).immediate = 1 then 0 else 1) rc
    (BitVec.allOnes 20)

/-- Under its mask a word keeps its canonical operand, and of `reg_or_cond` what `rc` selects. -/
theorem and_operandMask (w : Word) (rc : BitVec 4) :
    w &&& operandMask w rc =
      encodeOperand (decodeFields w).opcode ((decodeFields w).regOrCond &&& rc)
        (operandOfFields (decodeFields w)) := by
  have hone (b : BitVec 1) : b &&& 1 = b := BitVec.and_allOnes
  have hzero (b : BitVec 1) : b &&& 0 = 0 := BitVec.and_zero
  rw [operandMask, and_encodeFields, encodeOperand_operandOfFields, BitVec.and_allOnes,
    BitVec.and_allOnes, hone]
  split
  · rw [hzero]
  · rw [hone]

/-- The opcode uses no other field (R55): ILLOP, NOP, RET, HALT. -/
def IsBareOpcode (op : BitVec 6) : Prop :=
  op.toNat = 0 ∨ op.toNat = 1 ∨ op.toNat = 8 ∨ op.toNat = 11

/-- The mask of `reg_or_cond` for an opcode with an operand: PUSH and POP ignore the field (R55). -/
def regOrCondMask (op : BitVec 6) : BitVec 4 :=
  if op.toNat = 9 ∨ op.toNat = 10 then 0 else BitVec.allOnes 4

theorem regOrCondMask_of_push_pop {op : BitVec 6} (h : op.toNat = 9 ∨ op.toNat = 10) :
    regOrCondMask op = 0 := if_pos h

theorem regOrCondMask_of_other {op : BitVec 6} (h : ¬ (op.toNat = 9 ∨ op.toNat = 10)) :
    regOrCondMask op = BitVec.allOnes 4 := if_neg h

theorem usedBits_of_bareOpcode (w : Word) (h : IsBareOpcode (decodeFields w).opcode) :
    usedBits w = encodeFields (BitVec.allOnes 6) 0 0 0 0 := by
  unfold IsBareOpcode at h
  simp only [usedBits]
  split
  case h_5 | h_6 => omega
  case h_7 =>
    simp only [imp_false] at *
    omega
  all_goals decide

theorem usedBits_of_operand (w : Word) (h : ¬ IsBareOpcode (decodeFields w).opcode) :
    usedBits w = operandMask w (regOrCondMask (decodeFields w).opcode) := by
  unfold IsBareOpcode at h
  simp only [usedBits, operandMask]
  split
  case h_5 =>
    rw [regOrCondMask_of_push_pop (.inl ‹_›)]
    split <;> decide
  case h_6 =>
    rw [regOrCondMask_of_push_pop (.inr ‹_›)]
    split <;> decide
  case h_7 =>
    rw [regOrCondMask_of_other (not_or.mpr ⟨‹_›, ‹_›⟩)]
    split <;> decide
  all_goals omega

/-- Under the used bits a word without operand keeps its opcode field alone. -/
theorem and_usedBits_of_bareOpcode (w : Word) (h : IsBareOpcode (decodeFields w).opcode) :
    w &&& usedBits w = encodeFields (decodeFields w).opcode 0 0 0 0 := by
  rw [usedBits_of_bareOpcode w h, and_encodeFields, BitVec.and_allOnes]
  simp only [BitVec.ofNat_eq_ofNat, BitVec.and_zero]

theorem and_usedBits_of_operand (w : Word) (h : ¬ IsBareOpcode (decodeFields w).opcode) :
    w &&& usedBits w =
      encodeOperand (decodeFields w).opcode
        ((decodeFields w).regOrCond &&& regOrCondMask (decodeFields w).opcode)
        (operandOfFields (decodeFields w)) := by
  rw [usedBits_of_operand w h, and_operandMask]

/-- Settles O2: the used bits keep exactly the fields the decoder reads for the opcode, and the
canonical word is made of those. -/
theorem encodeOfDecodeClearsIgnoredBits : Obligations.EncodeOfDecodeClearsIgnoredBits := by
  unfold Obligations.EncodeOfDecodeClearsIgnoredBits
  intro w i h
  obtain ⟨hop, hargs⟩ := (decode_eq_ok_iff w i).mp h
  cases i with
  | illop | nop | ret | halt =>
    rw [and_usedBits_of_bareOpcode w (by simp [← hop, opcodeOf, IsBareOpcode]), ← hop]
    rfl
  | load r o | store r o | add r o | sub r o | branch c o | call c o =>
    obtain ⟨rfl, rfl⟩ := hargs
    rw [and_usedBits_of_operand w (by simp [← hop, opcodeOf, IsBareOpcode]),
      regOrCondMask_of_other (by simp [← hop, opcodeOf]), BitVec.and_allOnes, ← hop]
    simp [encode, fieldOfCond_condOfField, opcodeOf]
  | push o | pop o =>
    obtain rfl := hargs
    rw [and_usedBits_of_operand w (by simp [← hop, opcodeOf, IsBareOpcode]),
      regOrCondMask_of_push_pop (by simp [← hop, opcodeOf]), ← hop]
    simp [encode, opcodeOf]

/-! ### The words that are no instruction -/

/-- Settles O4: the decoder's two answers exclude each other, and so do their ranges. -/
theorem reservedOpcodesAreRefused : Obligations.ReservedOpcodesAreRefused := by
  unfold Obligations.ReservedOpcodesAreRefused
  intro w
  have hbits := opcode_toNat w
  obtain ⟨hrange, hdec⟩ | ⟨hrange, i, hdec⟩ := decode_cases w
  · refine ⟨⟨fun _ => by omega, fun _ => hdec⟩, ⟨?_, fun _ => by omega⟩⟩
    rintro ⟨i, hi⟩
    cases hdec.symm.trans hi
  · refine ⟨⟨fun he => ?_, fun _ => by omega⟩, ⟨fun _ => by omega, fun _ => ⟨i, hdec⟩⟩⟩
    cases hdec.symm.trans he

/-- Settles O3, each word by evaluation of the decoder. -/
theorem wordsOfTheSpecDecode : Obligations.WordsOfTheSpecDecode := by
  unfold Obligations.WordsOfTheSpecDecode
  decide

end Sys2Proof
end

section
/-! The values of the operand forms (spec/30_encoding.md R53; spec/40_decode_resolve_dispatch.md
R74), and the fatal errors of the legal forms (R58, R78). -/

namespace Sys2Proof.Machine

/-! ### The operand forms -/

/-- A field that ends at bit 31, sign-extended, is the arithmetic right shift that drops the bits
below it. -/
theorem signExtend_extractLsb'_eq_sshiftRight (w : Word) (start len : Nat) (hlen : 0 < len)
    (hend : start + len = 32) : (w.extractLsb' start len).signExtend 32 = w.sshiftRight start := by
  have hmsb : (w.extractLsb' start len).msb = w.msb := by
    rw [BitVec.msb_eq_getLsbD_last, BitVec.msb_eq_getLsbD_last, BitVec.getLsbD_extractLsb',
      show start + (len - 1) = 32 - 1 by omega]
    simp [hlen]
  refine BitVec.eq_of_getLsbD_eq fun i hi => ?_
  rw [BitVec.getLsbD_signExtend, BitVec.getLsbD_sshiftRight, hmsb, BitVec.getLsbD_extractLsb']
  by_cases hfield : i < len
  · simp [hi, hfield, show start + i < 32 by omega]
  · simp [hi, hfield, show ¬ start + i < 32 by omega]

/-- Settles O5: both signed fields end at bit 31, and the address field is what the logical shift
leaves. -/
theorem signedFieldsAreArithmeticShifts : Obligations.SignedFieldsAreArithmeticShifts := by
  unfold Obligations.SignedFieldsAreArithmeticShifts
  intro w
  refine ⟨signExtend_extractLsb'_eq_sshiftRight w 12 20 (by decide) rfl,
    signExtend_extractLsb'_eq_sshiftRight w 16 16 (by decide) rfl, ?_⟩
  refine BitVec.eq_of_getLsbD_eq fun i hi => ?_
  by_cases hfield : i < 20
  · simp [decodeFields, hi, hfield]
  · simp [decodeFields, hfield, BitVec.getLsbD_of_ge w (12 + i) (by omega)]

theorem literal_toInt (v : BitVec 20) : (literal v).toInt = v.toInt :=
  BitVec.toInt_signExtend_of_le (by decide)

/-- A 20-bit address never reaches the sign bit of a word. -/
theorem resolve_abs_toInt (s : State) (a : BitVec 20) :
    (s.resolve (.abs a)).toInt = a.toNat := by
  have ha := a.isLt
  have hnat : (s.resolve (.abs a)).toNat = a.toNat := BitVec.toNat_setWidth_of_le (by decide)
  rw [BitVec.toInt_eq_toNat_of_lt (by omega), hnat]

theorem resolve_idx_toInt (s : State) (r : Reg) (off : BitVec 16) :
    (s.resolve (.idx r off)).toInt = ((s.reg r).toInt + off.toInt).bmod (2 ^ 32) := by
  have hoff : (off.signExtend 32).toInt = off.toInt := BitVec.toInt_signExtend_of_le (by decide)
  rw [State.resolve, BitVec.toInt_add, hoff]

/-- Settles O6, form by form. -/
theorem operandValuesOfTheForms : Obligations.OperandValuesOfTheForms := by
  unfold Obligations.OperandValuesOfTheForms
  exact ⟨literal_toInt, resolve_abs_toInt, resolve_idx_toInt⟩

/-! ### The fatal errors of the legal forms -/

/-- An instruction that completes leaves `run` alone, but for HALT. -/
theorem effect_run (s t : State) (i : Instr) (h : Effect s i t) :
    t.run = s.run ∨ t.run = .halted := by
  cases h with
  | nop | load | store | add | sub | branchTaken | branchNotTaken | callTaken | callNotTaken | ret
  | push | pushStatic | pop => exact .inl rfl
  | halt => exact .inr rfl

/-- A fault record that an instruction leaves on a running machine is its own. -/
theorem raises_of_exec_faulted (i : Instr) (s t : State) (k : FatalKind) (a : Int)
    (hr : s.run = .running) (h : exec i s = .next t) (ht : t.run = .faulted k a) :
    Raises s i k := by
  rcases exec_cases i s t h with he | ⟨k', hk, rfl⟩
  · obtain hrun | hrun := effect_run s t i he
    · cases ht.symm.trans (hrun.trans hr)
    · cases ht.symm.trans hrun
  · cases ht
    exact hk

/-- `Immediate` comes from the literal form alone, which R55 forbids where it raises. -/
theorem not_raises_immediate_of_wf (s : State) (i : Instr) (hwf : i.wf = true) :
    ¬ Raises s i .immediate := by
  intro h
  cases h with
  | storeImm | popImm | branchImm | callImm => simp [Instr.wf, Operand.isAddress] at hwf

/-- `Condition` comes from a reserved condition or an Unknown `cc` (R78), and a legal form has a
named condition. -/
theorem cc_unknown_of_raises_condition (s : State) (i : Instr) (hwf : i.wf = true)
    (h : Raises s i .condition) : s.cc = .unknown := by
  cases h with
  | branchCond c ad hc | callCond c ad hc =>
    have hnamed : c.isNamed = true := by
      simp only [Instr.wf, Bool.and_eq_true] at hwf
      exact hwf.1
    obtain hreserved | ⟨-, hcc⟩ := hc
    · cases hreserved.symm.trans hnamed
    · exact hcc

/-- Settles O40: the fault is one the instruction raises, and a legal form leaves it these causes
alone. -/
theorem legalFormsRaiseNoEncodingFault : Obligations.LegalFormsRaiseNoEncodingFault := by
  unfold Obligations.LegalFormsRaiseNoEncodingFault
  intro i s t k a hwf hr h ht
  have hk := raises_of_exec_faulted i s t k a hr h ht
  refine ⟨?_, ?_⟩
  · rintro rfl
    exact not_raises_immediate_of_wf s i hwf hk
  · rintro rfl
    exact cc_unknown_of_raises_condition s i hwf hk

end Sys2Proof.Machine
end

section
/-! The machinery every instruction shares (spec/40_decode_resolve_dispatch.md): the wrap of an
indexed address, the condition evaluator, the dispatch of the decoded word, and where a step
ends. -/

namespace Sys2Proof.Machine

/-! ### The wrap of an indexed address -/

/-- An integer that leaves the signed 32-bit range by at most `2^15` wraps to one outside every
segment the bound of spec/00_scope.md R6 allows: a large one becomes negative, a small one at least
`SIZE_MAX`. -/
theorem bmod_range_iff (x : Int) (n : Nat) (hn : n ≤ Config.sizeMax)
    (hlow : -2 ^ 31 - 2 ^ 15 ≤ x) (hhigh : x < 2 ^ 31 + 2 ^ 15) :
    (0 ≤ x.bmod (2 ^ 32) ∧ x.bmod (2 ^ 32) < n) ↔ 0 ≤ x ∧ x < n := by
  unfold Config.sizeMax at hn
  obtain hfit | hlarge | hsmall :
      (-2 ^ 31 ≤ x ∧ x < 2 ^ 31) ∨ 2 ^ 31 ≤ x ∨ x < -2 ^ 31 := by omega
  · rw [Int.bmod_eq_of_le (by omega) (by omega)]
  · have hwrap : x.bmod (2 ^ 32) = x - 2 ^ 32 := by
      rw [← Int.sub_bmod_right]
      exact Int.bmod_eq_of_le (by omega) (by omega)
    omega
  · have hwrap : x.bmod (2 ^ 32) = x + 2 ^ 32 := by
      rw [← Int.add_bmod_right]
      exact Int.bmod_eq_of_le (by omega) (by omega)
    omega

/-- The sum of a word and a 16-bit offset leaves the signed range by at most `2^15`. -/
theorem resolve_idx_range_iff (s : State) (r : Reg) (off : BitVec 16) (n : Nat)
    (hn : n ≤ Config.sizeMax) :
    (0 ≤ (s.resolve (.idx r off)).toInt ∧ (s.resolve (.idx r off)).toInt < n) ↔
      0 ≤ (s.reg r).toInt + off.toInt ∧ (s.reg r).toInt + off.toInt < n := by
  have hreglow := BitVec.le_two_mul_toInt (x := s.reg r)
  have hreghigh := BitVec.two_mul_toInt_lt (x := s.reg r)
  have hofflow := BitVec.le_two_mul_toInt (x := off)
  have hoffhigh := BitVec.two_mul_toInt_lt (x := off)
  rw [resolve_idx_toInt]
  exact bmod_range_iff _ n hn (by omega) (by omega)

/-- Settles O7: a wrapped sum and the exact sum fail each range test together. -/
theorem indexedAddressIsValidWhenTheExactSumIs :
    Obligations.IndexedAddressIsValidWhenTheExactSumIs := by
  unfold Obligations.IndexedAddressIsValidWhenTheExactSumIs
  intro s r off htext hdata
  exact ⟨(validData_iff s _).trans (resolve_idx_range_iff s r off s.datasize hdata),
    (validText_iff s _).trans (resolve_idx_range_iff s r off s.textsize htext)⟩

/-! ### The condition evaluator -/

/-- Settles O11: each of the seven named values selects its line of the pseudocode and `cc` the cell
there; any other value is above 6. -/
theorem conditionTableOfTheEvaluator : Obligations.ConditionTableOfTheEvaluator := by
  unfold Obligations.ConditionTableOfTheEvaluator
  intro cc c
  unfold condOfField
  split
  case h_8 =>
    simp only [imp_false] at *
    rw [if_pos (by omega)]
    rfl
  all_goals
    rename_i hc
    rw [hc]
    cases cc <;> rfl

/-! ### The dispatch -/

/-- Settles O30: the fetch passes, and the handler runs after the advance. -/
theorem stepRunsTheDecodedInstruction : Obligations.StepRunsTheDecodedInstruction := by
  unfold Obligations.StepRunsTheDecodedInstruction
  intro s i hr hv hd
  exact step_of_decode s i hr hv hd

/-- Every instruction ends in a next state: its meaning is the completion of a handler
(spec/40_decode_resolve_dispatch.md R84). -/
theorem exec_total (i : Instr) (s : State) : ∃ t, exec i s = .next t := by
  cases i with
  | illop | nop | halt => exact ⟨_, rfl⟩
  | load | store | add | sub | branch | call | ret | push | pop =>
    exact complete_total s _

theorem step_total_of_running (s : State) (hr : s.run = .running) : ∃ t, step s = .next t := by
  cases hv : s.validText s.pc with
  | false => exact ⟨_, step_of_pc_invalid s hr hv⟩
  | true =>
    cases hd : decode (s.textAt s.pc) with
    | error e => exact ⟨_, step_of_undecodable s e hr hv hd⟩
    | ok i =>
      rw [step_of_decode s i hr hv hd]
      exact exec_total i s.advance

/-- Settles O33: a running step ends in each of its three ways, and no other state steps. -/
theorem exactlyTheRunningStatesStep : Obligations.ExactlyTheRunningStatesStep := by
  unfold Obligations.ExactlyTheRunningStatesStep
  intro s
  refine ⟨?_, step_total_of_running s⟩
  rintro ⟨t, hstep⟩
  obtain ⟨hr, -⟩ := step_cases s t hstep
  exact hr

/-! ### The end of a run -/

theorem opcodeOf_eq_halt_iff (i : Instr) : opcodeOf i = 11 ↔ i = .halt := by
  cases i with
  | halt => exact iff_of_true rfl rfl
  | illop | nop | load | store | add | sub | branch | call | ret | push | pop =>
    exact iff_of_false (by simp [opcodeOf]) nofun

/-- HALT alone writes Halted, and it raises nothing (spec/41_illop_nop_halt.md R92). -/
theorem exec_halted_iff (i : Instr) (s t : State) (hr : s.run = .running)
    (h : exec i s = .next t) : t.run = .halted ↔ i = .halt := by
  rcases exec_cases i s t h with he | ⟨k, hk, rfl⟩
  · cases he with
    | halt => exact iff_of_true rfl rfl
    | nop | load | store | add | sub | branchTaken | branchNotTaken | callTaken | callNotTaken
    | ret | push | pushStatic | pop => simp [hr]
  · refine iff_of_false nofun ?_
    rintro rfl
    cases hk

/-- The decoder refuses a word for its opcode alone (spec/30_encoding.md R58). -/
theorem twelve_le_opcode_of_undecodable {w : Word} {e : DecodeError} (h : decode w = .error e) :
    12 ≤ (w.extractLsb' 0 6).toNat := by
  obtain ⟨hrange, -⟩ | ⟨-, i, hi⟩ := decode_cases w
  · exact hrange
  · cases h.symm.trans hi

/-- Settles O41: a step that ends before its handler ends in Faulted, and the opcode is not 11
there; of the handlers that of HALT alone ends in Halted. -/
theorem onlyHaltEndsARunNormally : Obligations.OnlyHaltEndsARunNormally := by
  unfold Obligations.OnlyHaltEndsARunNormally
  intro s t hr hstep
  obtain ⟨-, ⟨hv, rfl⟩ | ⟨-, ⟨e, hd⟩, rfl⟩ | ⟨hv, i, hd, hexec⟩⟩ := step_cases s t hstep
  · simp [hv]
  · have hop := twelve_le_opcode_of_undecodable hd
    refine iff_of_false nofun ?_
    rintro ⟨-, h⟩
    rw [h] at hop
    exact absurd hop (by decide)
  · rw [opcode_bits_of_decode hd, opcodeOf_eq_halt_iff, exec_halted_iff i s.advance t hr hexec]
    exact (and_iff_right hv).symm

/-! ### A word placed for fetch -/

/-- An index below the bound of spec/00_scope.md R6 has its sign bit clear, so its unsigned reading
decides the range test, whatever the size. -/
theorem validText_of_toNat_lt (s : State) (v : Word) (hv : v.toNat < Config.sizeMax)
    (hlt : v.toNat < s.textsize) : s.validText v = true := by
  unfold Config.sizeMax at hv
  rw [validText_iff, BitVec.toInt_eq_toNat_of_lt (by omega)]
  omega

section
variable (s : State) (nbits w : Nat)

theorem withFetchWord_run : (s.withFetchWord nbits w).run = .running := rfl

theorem withFetchWord_pc_lt : (s.withFetchWord nbits w).pc.toNat < Config.sizeMax := by
  simp only [State.withFetchWord, State.loadWord_pc, State.setRun_pc, State.setPc_pc]
  split
  · assumption
  · decide

theorem withFetchWord_validText :
    (s.withFetchWord nbits w).validText (s.withFetchWord nbits w).pc = true :=
  validText_of_toNat_lt _ _ (withFetchWord_pc_lt s nbits w)
    (Nat.lt_of_lt_of_le (Nat.lt_succ_self _) (Nat.le_max_right s.textsize _))

/-- In a canonical text the placed word is the one the next step fetches. -/
theorem withFetchWord_textAt (hwf : Memory.wf s.text = true) :
    (s.withFetchWord nbits w).textAt (s.withFetchWord nbits w).pc =
      BitVec.ofNat 32 (w % 2 ^ nbits) :=
  Memory.read_write_same s.text _ _ hwf

end

/-- Settles O56: the machine runs, its pc is an index of the grown text, and the word there is the
placed one. -/
theorem aWordPlacedForFetchIsTheOneRun : Obligations.AWordPlacedForFetchIsTheOneRun := by
  unfold Obligations.AWordPlacedForFetchIsTheOneRun
  intro s w i hwf hw hd
  refine step_of_decode _ i (withFetchWord_run s 32 w) (withFetchWord_validText s 32 w) ?_
  rw [withFetchWord_textAt s 32 w hwf, Nat.mod_eq_of_lt hw]
  exact hd

end Sys2Proof.Machine
end

section
/-! ILLOP, NOP and HALT (spec/41_illop_nop_halt.md R90 to R92): the decoder selects them by the
opcode alone, every other bit ignored (spec/30_encoding.md R55), and their step from the fetch to
its end. -/

namespace Sys2Proof.Machine

/-! ### The decoder -/

theorem decode_illop (w : Word) (hop : w.extractLsb' 0 6 = 0) : decode w = .ok .illop :=
  (decode_eq_ok_iff w .illop).mpr ⟨hop.symm, trivial⟩

theorem decode_nop (w : Word) (hop : w.extractLsb' 0 6 = 1) : decode w = .ok .nop :=
  (decode_eq_ok_iff w .nop).mpr ⟨hop.symm, trivial⟩

theorem decode_halt (w : Word) (hop : w.extractLsb' 0 6 = 11) : decode w = .ok .halt :=
  (decode_eq_ok_iff w .halt).mpr ⟨hop.symm, trivial⟩

/-- The remainder modulo 64 is the opcode field: what the decoder does with the words R90 names. -/
theorem decode_of_illegal_opcode (w : Word) (h : w.toNat % 64 = 0 ∨ 12 ≤ w.toNat % 64) :
    decode w = .ok .illop ∨ ∃ e, decode w = .error e := by
  rw [← opcode_toNat] at h
  obtain hzero | hreserved := h
  · exact .inl (decode_illop w (BitVec.eq_of_toNat_eq hzero))
  · obtain ⟨-, he⟩ | ⟨hrange, -⟩ := decode_cases w
    · exact .inr ⟨_, he⟩
    · omega

/-! ### ILLOP and the reserved opcodes -/

theorem exec_illop (s : State) : exec .illop s = .next (s.raise .illegal s.instrAddr) :=
  exec_of_raises s _ _ .illop

/-- ILLOP raises in its handler, a reserved opcode in the dispatcher: the state they end in is the
same (spec/41_illop_nop_halt.md R90). -/
theorem step_of_illegal_opcode (s : State) (hr : s.run = .running)
    (hv : s.validText s.pc = true)
    (hop : (s.textAt s.pc).toNat % 64 = 0 ∨ 12 ≤ (s.textAt s.pc).toNat % 64) :
    step s = .next (s.advance.raise .illegal s.pc) := by
  obtain hd | ⟨e, hd⟩ := decode_of_illegal_opcode _ hop
  · rw [step_of_decode s .illop hr hv hd, exec_illop, instrAddr_advance]
  · exact step_of_undecodable s e hr hv hd

/-- Settles O13: a word with opcode 0 and a reserved one end in the same fault. -/
theorem illopAndReservedWordsRaiseIllegal : Obligations.IllopAndReservedWordsRaiseIllegal := by
  unfold Obligations.IllopAndReservedWordsRaiseIllegal
  exact ⟨decode_illop, exec_illop, step_of_illegal_opcode⟩

/-! ### NOP -/

theorem exec_nop (s : State) : exec .nop s = .next s :=
  exec_of_effect s s _ .nop

theorem step_of_nop (s : State) (hr : s.run = .running) (hv : s.validText s.pc = true)
    (hop : (s.textAt s.pc).extractLsb' 0 6 = 1) : step s = .next s.advance := by
  rw [step_of_decode s .nop hr hv (decode_nop _ hop), exec_nop]

/-- Behind the last text index the pc has not wrapped: the bound of spec/00_scope.md R6 leaves room
for it. -/
theorem advance_pc_toInt_of_last (s : State) (hsize : s.textsize ≤ Config.sizeMax)
    (hlast : s.pc.toInt + 1 = s.textsize) : s.advance.pc.toInt = s.textsize := by
  unfold Config.sizeMax at hsize
  rw [State.advance_pc, BitVec.toInt_add, show (1 : Word).toInt = 1 from rfl, hlast]
  exact Int.bmod_eq_of_le (by omega) (by omega)

/-- Past the last text index the fetch fails with the address `textsize`, and the pc stays there
(spec/60_exceptions.md R142). -/
theorem step_advance_of_last (s : State) (hr : s.run = .running)
    (hsize : s.textsize ≤ Config.sizeMax) (hlast : s.pc.toInt + 1 = s.textsize) :
    step s.advance = .next (s.advance.setRun (.faulted .segText s.textsize)) := by
  have hpc := advance_pc_toInt_of_last s hsize hlast
  have hv : s.advance.validText s.advance.pc = false := by
    rw [Bool.eq_false_iff, Ne, validText_iff, hpc, State.advance_textsize]
    omega
  rw [step_of_pc_invalid s.advance hr hv, State.raise, hpc]

/-- Settles O14: the state after the NOP is the advanced one, whose pc is outside the text where the
NOP stood at the last index. -/
theorem nopOnlyAdvancesThePc : Obligations.NopOnlyAdvancesThePc := by
  unfold Obligations.NopOnlyAdvancesThePc
  exact ⟨decode_nop, exec_nop, step_of_nop,
    fun s hr hsize _ hlast _ => step_advance_of_last s hr hsize hlast⟩

/-! ### HALT -/

theorem exec_halt (s : State) :
    exec .halt s = .next ((s.warn .halt s.instrAddr).setRun .halted) :=
  exec_of_effect s _ _ .halt

/-- The pc of a halted machine is `a + 1`; the warning holds `a` (D24). -/
theorem step_of_halt (s : State) (hr : s.run = .running) (hv : s.validText s.pc = true)
    (hop : (s.textAt s.pc).extractLsb' 0 6 = 11) :
    step s = .next ((s.advance.warn .halt s.pc).setRun .halted) := by
  rw [step_of_decode s .halt hr hv (decode_halt _ hop), exec_halt, instrAddr_advance]

/-- Settles O15: the handler's effect, in the state it is given and after the step's advance. -/
theorem haltWarnsAndEndsTheRun : Obligations.HaltWarnsAndEndsTheRun := by
  unfold Obligations.HaltWarnsAndEndsTheRun
  exact ⟨decode_halt, exec_halt, step_of_halt⟩

end Sys2Proof.Machine
end

section
/-! The operand fetch, LOAD and STORE (spec/42_load_store.md R99 to R101): each form of the operand,
the state each instruction ends in, and the frame of a STORE (spec/20_memory.md R36). -/

namespace Sys2Proof.Machine

/-! ### The frame of a STORE -/

/-- A STORE ends in the write of its register at its effective address or in a fatal error. -/
theorem exec_store_cases (r : Reg) (dst : Operand) (s t : State)
    (h : exec (.store r dst) s = .next t) :
    (∃ ea, s.address dst = .ok ea ∧ t = s.setData ea (s.reg r)) ∨
      ∃ k, t = s.raise k s.instrAddr := by
  rcases exec_cases _ s t h with he | ⟨k, -, ht⟩
  · cases he with | store _ _ ea ha => exact .inl ⟨ea, ha, rfl⟩
  · exact .inr ⟨k, ht⟩

/-- Settles O26: the data write touches one word, at the address of the operand, and a fatal error
touches `run` alone. -/
theorem storeChangesOneDataWord : Obligations.StoreChangesOneDataWord := by
  unfold Obligations.StoreChangesOneDataWord
  intro r dst s t h
  obtain ⟨ea, ha, rfl⟩ | ⟨k, rfl⟩ := exec_store_cases r dst s t h
  · refine ⟨fun _ => rfl, rfl, rfl, rfl, rfl, rfl, rfl, rfl, fun ea' ha' n hn => ?_,
      fun k hk => ?_⟩
    · obtain rfl : ea = ea' := Except.ok.inj (ha.symm.trans ha')
      exact Memory.read_write_other s.data ea.toNat n (s.reg r) hn
    · cases ha.symm.trans hk
  · exact ⟨fun _ => rfl, rfl, rfl, rfl, rfl, rfl, rfl, rfl, fun _ _ _ _ => rfl,
      fun _ _ _ => rfl⟩

/-! ### The operand fetch -/

theorem operand_imm (s : State) (x : BitVec 20) : s.operand (.imm x) = .ok (literal x) :=
  (operand_eq_ok s _ _).mpr (.inl ⟨x, rfl, rfl⟩)

theorem operand_of_validData (s : State) (ad : Addr) (hv : s.validData (s.resolve ad) = true) :
    s.operand (.mem ad) = .ok (s.dataAt (s.resolve ad)) :=
  (operand_eq_ok s _ _).mpr (.inr ⟨ad, rfl, hv, rfl⟩)

theorem operand_of_not_validData (s : State) (ad : Addr)
    (hv : s.validData (s.resolve ad) = false) : s.operand (.mem ad) = .error .segData :=
  (operand_eq_error s _ _).mpr ⟨ad, rfl, hv, rfl⟩

/-- Settles O9: the three outcomes of the operand fetch, one for each form and result of the range
test. -/
theorem operandFetchReadsLiteralOrDataWord : Obligations.OperandFetchReadsLiteralOrDataWord := by
  unfold Obligations.OperandFetchReadsLiteralOrDataWord
  exact ⟨operand_imm, operand_of_validData, operand_of_not_validData⟩

/-! ### LOAD -/

theorem decode_load (w : Word) (hop : w.extractLsb' 0 6 = 2) :
    decode w = .ok (.load (regOfField (w.extractLsb' 8 4)) (operandOfFields (decodeFields w))) :=
  (decode_eq_ok_iff w (.load _ _)).mpr ⟨hop.symm, rfl, rfl⟩

theorem exec_load_imm (r : Reg) (x : BitVec 20) (s : State) :
    exec (.load r (.imm x)) s = .next (s.writeBack r (literal x)) :=
  exec_of_effect s _ _ (.load r _ _ (operand_imm s x))

theorem exec_load_of_not_validData (r : Reg) (ad : Addr) (s : State)
    (hv : s.validData (s.resolve ad) = false) :
    exec (.load r (.mem ad)) s = .next (s.raise .segData s.instrAddr) :=
  exec_of_raises s _ _ (.load r ad hv)

/-- Settles O16: a LOAD writes back what its operand fetch gives, or raises what it raises. -/
theorem loadWritesRegisterAndSign : Obligations.LoadWritesRegisterAndSign := by
  unfold Obligations.LoadWritesRegisterAndSign
  exact ⟨decode_load, exec_load_imm, exec_load_of_validData, exec_load_of_not_validData⟩

/-! ### STORE -/

theorem decode_store (w : Word) (hop : w.extractLsb' 0 6 = 3) :
    decode w = .ok (.store (regOfField (w.extractLsb' 8 4)) (operandOfFields (decodeFields w))) :=
  (decode_eq_ok_iff w (.store _ _)).mpr ⟨hop.symm, rfl, rfl⟩

theorem exec_store_imm (r : Reg) (x : BitVec 20) (s : State) :
    exec (.store r (.imm x)) s = .next (s.raise .immediate s.instrAddr) :=
  exec_of_raises s _ _ (.storeImm r x)

theorem exec_store_of_not_validData (r : Reg) (ad : Addr) (s : State)
    (hv : s.validData (s.resolve ad) = false) :
    exec (.store r (.mem ad)) s = .next (s.raise .segData s.instrAddr) :=
  exec_of_raises s _ _ (.store r ad hv)

/-- Settles O17: the literal form raises before the range test, which comes before the write. -/
theorem storeWritesTheDataWord : Obligations.StoreWritesTheDataWord := by
  unfold Obligations.StoreWritesTheDataWord
  exact ⟨decode_store, exec_store_imm, exec_store_of_validData, exec_store_of_not_validData⟩

end Sys2Proof.Machine
end

section
/-! ADD and SUB (spec/43_add_sub.md R110, R111) and the sign they set `cc` from (R113): the signed
tests of `sign` as ranges of the unsigned reading, and the state each instruction ends in, for
whatever its operand fetch gives. -/

namespace Sys2Proof.Machine

/-! ### The sign of a word -/

/-- The three ranges of R113, each with the sign of its words: no word has two signs, and every word
has one. -/
theorem sign_cases (v : Word) :
    (0x80000000 ≤ v.toNat ∧ sign v = .negative) ∨
      (v.toNat = 0 ∧ sign v = .zero) ∨
      ((1 ≤ v.toNat ∧ v.toNat ≤ 0x7FFFFFFF) ∧ sign v = .positive) := by
  by_cases hneg : v.toInt < 0
  · have hrange := BitVec.toInt_neg_iff.mp hneg
    exact .inl ⟨by omega, if_pos hneg⟩
  · have hsign : sign v = if v = 0 then .zero else .positive := if_neg hneg
    by_cases hzero : v = 0
    · exact .inr (.inl ⟨congrArg BitVec.toNat hzero, hsign.trans (if_pos hzero)⟩)
    · have hrange := mt BitVec.toInt_neg_iff.mpr hneg
      have hne : v.toNat ≠ 0 := fun h => hzero (BitVec.eq_of_toNat_eq h)
      exact .inr (.inr ⟨by omega, hsign.trans (if_neg hzero)⟩)

/-- Settles O10: the ranges exclude each other, so the sign of a word tells the range it is in. -/
theorem signOfEveryWord : Obligations.SignOfEveryWord := by
  unfold Obligations.SignOfEveryWord
  intro v
  obtain ⟨hrange, hsign⟩ | ⟨hrange, hsign⟩ | ⟨hrange, hsign⟩ := sign_cases v
  all_goals
    simp only [hsign, reduceCtorEq, ne_eq, not_false_eq_true, true_iff, false_iff, and_true]
    omega

/-! ### ADD -/

theorem decode_add (w : Word) (hop : w.extractLsb' 0 6 = 4) :
    decode w = .ok (.add (regOfField (w.extractLsb' 8 4)) (operandOfFields (decodeFields w))) :=
  (decode_eq_ok_iff w (.add _ _)).mpr ⟨hop.symm, rfl, rfl⟩

theorem exec_add_of_operand (r : Reg) {src : Operand} {s : State} {v : Word}
    (hv : s.operand src = .ok v) :
    exec (.add r src) s = .next (s.writeBack r (s.reg r + v)) :=
  exec_of_effect s _ _ (.add r src v hv)

theorem exec_add_of_not_validData (r : Reg) (ad : Addr) (s : State)
    (hv : s.validData (s.resolve ad) = false) :
    exec (.add r (.mem ad)) s = .next (s.raise .segData s.instrAddr) :=
  exec_of_raises s _ _ (.add r ad hv)

/-- Settles O18: an ADD writes back the sum with what its operand fetch gives, or raises what that
raises. -/
theorem addWritesSumAndSign : Obligations.AddWritesSumAndSign := by
  unfold Obligations.AddWritesSumAndSign
  exact ⟨decode_add, fun r x s => exec_add_of_operand r (operand_imm s x),
    fun r ad s hv => exec_add_of_operand r (operand_of_validData s ad hv),
    exec_add_of_not_validData⟩

/-! ### SUB -/

theorem decode_sub (w : Word) (hop : w.extractLsb' 0 6 = 5) :
    decode w = .ok (.sub (regOfField (w.extractLsb' 8 4)) (operandOfFields (decodeFields w))) :=
  (decode_eq_ok_iff w (.sub _ _)).mpr ⟨hop.symm, rfl, rfl⟩

theorem exec_sub_of_operand (r : Reg) {src : Operand} {s : State} {v : Word}
    (hv : s.operand src = .ok v) :
    exec (.sub r src) s = .next (s.writeBack r (s.reg r - v)) :=
  exec_of_effect s _ _ (.sub r src v hv)

theorem exec_sub_of_not_validData (r : Reg) (ad : Addr) (s : State)
    (hv : s.validData (s.resolve ad) = false) :
    exec (.sub r (.mem ad)) s = .next (s.raise .segData s.instrAddr) :=
  exec_of_raises s _ _ (.sub r ad hv)

/-- Settles O19: a SUB writes back its register less what its operand fetch gives, or raises what
that raises. -/
theorem subWritesDifferenceAndSign : Obligations.SubWritesDifferenceAndSign := by
  unfold Obligations.SubWritesDifferenceAndSign
  exact ⟨decode_sub, fun r x s => exec_sub_of_operand r (operand_imm s x),
    fun r ad s hv => exec_sub_of_operand r (operand_of_validData s ad hv),
    exec_sub_of_not_validData⟩

end Sys2Proof.Machine
end

section
/-! BRANCH, CALL and RET (spec/44_branch_call_ret.md R120 to R122): the state each of them ends in,
the fault of a bad target at the step behind the jump (R123), and the frame of the two instructions
that push (spec/20_memory.md R36). -/

namespace Sys2Proof.Machine

/-! ### The frame of PUSH and CALL -/

/-- A PUSH or CALL ends in the push of one word at the old `sp`, beside which a CALL writes the pc
and a PUSH at most the log; or it stores nothing: a CALL not taken, and a fatal error, which writes
`run` alone. -/
theorem exec_pushCall_cases (i : Instr) (s t : State)
    (hi : (∃ src, i = .push src) ∨ ∃ c target, i = .call c target) (h : exec i s = .next t) :
    (∃ src v ws, i = .push src ∧
        t = { (s.setData s.sp v).setSp (s.sp - 1) with warnings := ws }) ∨
      (∃ c target ea, i = .call c target ∧
        t = ((s.setData s.sp s.pc).setSp (s.sp - 1)).setPc ea) ∨
      ∃ r, t = s.setRun r := by
  rcases exec_cases i s t h with he | ⟨k, -, ht⟩
  · obtain ⟨src, rfl⟩ | ⟨c, target, rfl⟩ := hi
    · cases he with
      | push | pushStatic => exact .inl ⟨_, _, _, rfl, rfl⟩
    · cases he with
      | callTaken => exact .inr (.inl ⟨_, _, _, rfl, rfl⟩)
      | callNotTaken => exact .inr (.inr ⟨s.run, rfl⟩)
  · exact .inr (.inr ⟨_, ht⟩)

/-- Settles O27: the push touches R15 and the word at the old `sp`, and what comes beside it is the
pc for a CALL and the log for a PUSH. -/
theorem pushAndCallChangeTheSlotAtSp : Obligations.PushAndCallChangeTheSlotAtSp := by
  unfold Obligations.PushAndCallChangeTheSlotAtSp
  intro i s t hi h
  have hreg (u : State) (q : Reg) (hq : q ≠ spReg) : (u.setSp (s.sp - 1)).reg q = u.reg q :=
    State.reg_setSp_other u q _ hq
  have hdata (v : Word) (n : Nat) (hn : n ≠ s.sp.toNat) :
      Memory.read (s.setData s.sp v).data n = Memory.read s.data n :=
    Memory.read_write_other s.data s.sp.toNat n v hn
  obtain ⟨src, v, ws, rfl, rfl⟩ | ⟨c, target, ea, rfl, rfl⟩ | ⟨r, rfl⟩ :=
    exec_pushCall_cases i s t hi h
  · exact ⟨hreg _, rfl, rfl, rfl, rfl, rfl, hdata v, fun _ _ => rfl, nofun⟩
  · exact ⟨hreg _, rfl, rfl, rfl, rfl, rfl, hdata s.pc, nofun, fun _ _ _ => rfl⟩
  · exact ⟨fun _ _ => rfl, rfl, rfl, rfl, rfl, rfl, fun _ _ => rfl, fun _ _ => rfl,
      fun _ _ _ => rfl⟩

/-! ### BRANCH -/

theorem decode_branch (w : Word) (hop : w.extractLsb' 0 6 = 6) :
    decode w =
      .ok (.branch (condOfField (w.extractLsb' 8 4)) (operandOfFields (decodeFields w))) :=
  (decode_eq_ok_iff w (.branch _ _)).mpr ⟨hop.symm, rfl, rfl⟩

theorem exec_branch_imm (c : Cond) (x : BitVec 20) (s : State) :
    exec (.branch c (.imm x)) s = .next (s.raise .immediate s.instrAddr) :=
  exec_of_raises s _ _ (.branchImm c x)

theorem exec_branch_of_refused (c : Cond) (ad : Addr) (s : State)
    (hj : shouldJump s.cc c = .error .condition) :
    exec (.branch c (.mem ad)) s = .next (s.raise .condition s.instrAddr) :=
  exec_of_raises s _ _ (.branchCond c ad ((shouldJump_eq_error _ _ _).mp hj).2)

theorem exec_branch_taken (c : Cond) (ad : Addr) (s : State)
    (hj : shouldJump s.cc c = .ok true) :
    exec (.branch c (.mem ad)) s = .next (s.setPc (s.resolve ad)) :=
  exec_of_effect s _ _ (.branchTaken c _ _ rfl hj)

theorem exec_branch_not_taken (c : Cond) (ad : Addr) (s : State)
    (hj : shouldJump s.cc c = .ok false) : exec (.branch c (.mem ad)) s = .next s :=
  exec_of_effect s _ _ (.branchNotTaken c _ _ rfl hj)

/-- The advance of the pc shows neither in the target, formed from the registers, nor in the pc,
which the jump overwrites. -/
theorem step_of_branch_taken (c : Cond) (ad : Addr) (s : State) (hr : s.run = .running)
    (hv : s.validText s.pc = true) (hd : decode (s.textAt s.pc) = .ok (.branch c (.mem ad)))
    (hj : shouldJump s.cc c = .ok true) : step s = .next (s.setPc (s.resolve ad)) := by
  rw [step_of_decode s _ hr hv hd, exec_branch_taken c ad s.advance hj,
    resolve_congr s s.advance rfl]
  rfl

/-- A jump out of the text is found by the fetch behind it (spec/44_branch_call_ret.md R123). -/
theorem step_setPc_of_not_validText (s : State) (a : Word) (hr : s.run = .running)
    (hv : s.validText a = false) : step (s.setPc a) = .next ((s.setPc a).raise .segText a) :=
  step_of_pc_invalid (s.setPc a) hr hv

/-- Settles O20: the handler's four outcomes, and the two steps of a jump to a bad target. -/
theorem branchSetsPcWhenTheConditionHolds : Obligations.BranchSetsPcWhenTheConditionHolds := by
  unfold Obligations.BranchSetsPcWhenTheConditionHolds
  exact ⟨decode_branch, exec_branch_imm, exec_branch_of_refused, exec_branch_taken,
    exec_branch_not_taken, fun c ad s hr hv hd hj hbad =>
      ⟨step_of_branch_taken c ad s hr hv hd hj, step_setPc_of_not_validText s _ hr hbad⟩⟩

/-! ### CALL -/

theorem decode_call (w : Word) (hop : w.extractLsb' 0 6 = 7) :
    decode w = .ok (.call (condOfField (w.extractLsb' 8 4)) (operandOfFields (decodeFields w))) :=
  (decode_eq_ok_iff w (.call _ _)).mpr ⟨hop.symm, rfl, rfl⟩

theorem exec_call_imm (c : Cond) (x : BitVec 20) (s : State) :
    exec (.call c (.imm x)) s = .next (s.raise .immediate s.instrAddr) :=
  exec_of_raises s _ _ (.callImm c x)

theorem exec_call_of_refused (c : Cond) (ad : Addr) (s : State)
    (hj : shouldJump s.cc c = .error .condition) :
    exec (.call c (.mem ad)) s = .next (s.raise .condition s.instrAddr) :=
  exec_of_raises s _ _ (.callCond c ad ((shouldJump_eq_error _ _ _).mp hj).2)

/-- A CALL not taken makes no stack test (D25). -/
theorem exec_call_not_taken (c : Cond) (ad : Addr) (s : State)
    (hj : shouldJump s.cc c = .ok false) : exec (.call c (.mem ad)) s = .next s :=
  exec_of_effect s _ _ (.callNotTaken c _ _ rfl hj)

theorem pushOk_eq_false_iff (s : State) :
    s.pushOk = false ↔ ¬ (1 ≤ s.sp.toInt ∧ s.sp.toInt ≤ (s.datasize : Int) - 1) := by
  rw [← pushOk_iff, Bool.not_eq_true]

theorem exec_call_of_not_pushOk (c : Cond) (ad : Addr) (s : State)
    (hj : shouldJump s.cc c = .ok true) (hp : s.pushOk = false) :
    exec (.call c (.mem ad)) s = .next (s.raise .segStack s.instrAddr) :=
  exec_of_raises s _ _ (.callStack c ad hj hp)

theorem exec_call_taken (c : Cond) (ad : Addr) (s : State)
    (hj : shouldJump s.cc c = .ok true) (hp : s.pushOk = true) :
    exec (.call c (.mem ad)) s =
      .next (((s.setData s.sp s.pc).setSp (s.sp - 1)).setPc (s.resolve ad)) :=
  exec_of_effect s _ _ (.callTaken c _ _ rfl hj hp)

/-- Settles O21: the stack test, written out as the range of R130, is made by a taken call alone. -/
theorem callPushesReturnAddressAndJumps : Obligations.CallPushesReturnAddressAndJumps := by
  unfold Obligations.CallPushesReturnAddressAndJumps
  exact ⟨decode_call, exec_call_imm, exec_call_of_refused, exec_call_not_taken,
    fun c ad s hj hsp => exec_call_of_not_pushOk c ad s hj ((pushOk_eq_false_iff s).mpr hsp),
    fun c ad s hj hsp => exec_call_taken c ad s hj ((pushOk_iff s).mpr hsp)⟩

/-! ### RET -/

theorem decode_ret (w : Word) (hop : w.extractLsb' 0 6 = 8) : decode w = .ok .ret :=
  (decode_eq_ok_iff w .ret).mpr ⟨hop.symm, trivial⟩

theorem exec_ret_of_popOk (s : State) (hp : s.popOk = true) :
    exec .ret s = .next ((s.setPc (s.dataAt (s.sp + 1))).setSp (s.sp + 1)) :=
  exec_of_effect s _ _ (.ret hp)

theorem exec_ret_of_not_popOk (s : State) (hp : s.popOk = false) :
    exec .ret s = .next (s.raise .segStack s.instrAddr) :=
  exec_of_raises s _ _ (.ret hp)

/-- Settles O22: the pop test of R130 is the data range test at `sp + 1`. -/
theorem retPopsThePc : Obligations.RetPopsThePc := by
  unfold Obligations.RetPopsThePc
  exact ⟨decode_ret, exec_ret_of_popOk, exec_ret_of_not_popOk⟩

end Sys2Proof.Machine
end

section
/-! PUSH, POP and the stack discipline (spec/45_push_pop.md R130 to R134): the ranges of the two
stack tests, the state each instruction ends in, the frame of a POP (spec/20_memory.md R36), and the
symmetry of a pop with the push before it. -/

namespace Sys2Proof.Machine

/-! ### The stack tests -/

/-- The pop test is the range test of a sum that leaves the signed range by at most 1, and a wrapped
sum fails it as the exact one does. -/
theorem popOk_iff (s : State) (hn : s.datasize ≤ Config.sizeMax) :
    s.popOk = true ↔ -1 ≤ s.sp.toInt ∧ s.sp.toInt ≤ (s.datasize : Int) - 2 := by
  have hlow := BitVec.le_two_mul_toInt (x := s.sp)
  have hhigh := BitVec.two_mul_toInt_lt (x := s.sp)
  have hsum : (s.sp + 1).toInt = (s.sp.toInt + 1).bmod (2 ^ 32) := BitVec.toInt_add s.sp 1
  calc s.popOk = true
    _ ↔ 0 ≤ (s.sp + 1).toInt ∧ (s.sp + 1).toInt < s.datasize := validData_iff s (s.sp + 1)
    _ ↔ 0 ≤ s.sp.toInt + 1 ∧ s.sp.toInt + 1 < s.datasize := by
      rw [hsum]
      exact bmod_range_iff _ _ hn (by omega) (by omega)
    _ ↔ -1 ≤ s.sp.toInt ∧ s.sp.toInt ≤ (s.datasize : Int) - 2 := by omega

/-- Where the push test passes, the decrement of `sp` does not wrap. -/
theorem sp_pred_toInt_of_pushOk (s : State) (hp : s.pushOk = true) :
    (s.sp - 1).toInt = s.sp.toInt - 1 := by
  obtain ⟨hpos, -⟩ := (pushOk_iff s).mp hp
  have hhigh := BitVec.two_mul_toInt_lt (x := s.sp)
  calc (s.sp - 1).toInt
    _ = (s.sp.toInt - 1).bmod (2 ^ 32) := BitVec.toInt_sub
    _ = s.sp.toInt - 1 := Int.bmod_eq_of_le (by omega) (by omega)

/-- Settles O12: the wrapped `sp + 1` never passes the pop test, and `sp - 1` does not wrap where
the push test passes. -/
theorem popTestIsTheRangeOfTheStackPointer : Obligations.PopTestIsTheRangeOfTheStackPointer := by
  unfold Obligations.PopTestIsTheRangeOfTheStackPointer
  intro s hn
  exact ⟨popOk_iff s hn, fun hp =>
    ⟨pushOk_validData s hp, pushOk_validData_pred s hp, sp_pred_toInt_of_pushOk s hp⟩⟩

/-! ### The frame of a POP -/

/-- A POP ends in the write of a word at its effective address and of `sp`, or in a fatal error. -/
theorem exec_pop_cases (dst : Operand) (s t : State) (h : exec (.pop dst) s = .next t) :
    (∃ ea, s.address dst = .ok ea ∧
        t = (s.setData ea (s.dataAt (s.sp + 1))).setSp (s.sp + 1)) ∨
      ∃ k, t = s.raise k s.instrAddr := by
  rcases exec_cases _ s t h with he | ⟨k, -, ht⟩
  · cases he with | pop _ ea ha => exact .inl ⟨ea, ha, rfl⟩
  · exact .inr ⟨k, ht⟩

/-- Settles O28: a POP that completes writes R15 and the word at the address of its operand, and a
fatal error, the one of the literal form included, writes `run` alone. -/
theorem popChangesSpAndOneDataWord : Obligations.PopChangesSpAndOneDataWord := by
  unfold Obligations.PopChangesSpAndOneDataWord
  intro dst s t h
  obtain ⟨ea, ha, rfl⟩ | ⟨k, rfl⟩ := exec_pop_cases dst s t h
  · refine ⟨fun q hq => State.reg_setSp_other _ q _ hq, rfl, rfl, rfl, rfl, rfl, rfl, rfl,
      fun ea' ha' n hn => ?_, fun k hk => ?_⟩
    · obtain rfl : ea = ea' := Except.ok.inj (ha.symm.trans ha')
      exact Memory.read_write_other s.data ea.toNat n _ hn
    · cases ha.symm.trans hk
  · exact ⟨fun _ _ => rfl, rfl, rfl, rfl, rfl, rfl, rfl, rfl, fun _ _ _ _ => rfl,
      fun _ _ _ => rfl⟩

/-! ### PUSH -/

theorem decode_push (w : Word) (hop : w.extractLsb' 0 6 = 9) :
    decode w = .ok (.push (operandOfFields (decodeFields w))) :=
  (decode_eq_ok_iff w (.push _)).mpr ⟨hop.symm, rfl⟩

theorem exec_push_of_not_pushOk (src : Operand) (s : State) (hp : s.pushOk = false) :
    exec (.push src) s = .next (s.raise .segStack s.instrAddr) :=
  exec_of_raises s _ _ (.pushStack src hp)

theorem exec_push_of_not_validData (ad : Addr) (s : State) (hp : s.pushOk = true)
    (hv : s.validData (s.resolve ad) = false) :
    exec (.push (.mem ad)) s = .next (s.raise .segData s.instrAddr) :=
  exec_of_raises s _ _ (.pushData ad hp hv)

/-- The warning log behind a PUSH that completes in `s`: the new `sp` decides the entry (R134). -/
def State.pushWarnings (s : State) : List Warning :=
  if (s.sp - 1).toInt < s.dataend then s.warnings ++ [⟨.pushStatic, s.instrAddr.toInt⟩]
  else s.warnings

theorem exec_push_of_operand {src : Operand} {s : State} {v : Word} (hp : s.pushOk = true)
    (hv : s.operand src = .ok v) :
    exec (.push src) s =
      .next { (s.setData s.sp v).setSp (s.sp - 1) with warnings := s.pushWarnings } := by
  unfold State.pushWarnings
  by_cases hw : (s.sp - 1).toInt < s.dataend
  · rw [if_pos hw]
    exact exec_of_effect s _ _ (.pushStatic src v hp hv hw)
  · rw [if_neg hw]
    exact exec_of_effect s _ _ (.push src v hp hv hw)

/-- Settles O23: the stack test, written out as the range of R130, comes before the operand fetch,
and a PUSH that passes both pushes what the fetch gives. -/
theorem pushWritesThenDecrements : Obligations.PushWritesThenDecrements := by
  unfold Obligations.PushWritesThenDecrements
  exact ⟨decode_push,
    fun src s hsp => exec_push_of_not_pushOk src s ((pushOk_eq_false_iff s).mpr hsp),
    fun ad s hsp hv => exec_push_of_not_validData ad s ((pushOk_iff s).mpr hsp) hv,
    fun x s hsp => exec_push_of_operand ((pushOk_iff s).mpr hsp) (operand_imm s x),
    fun ad s hsp hv =>
      exec_push_of_operand ((pushOk_iff s).mpr hsp) (operand_of_validData s ad hv)⟩

/-! ### POP -/

theorem decode_pop (w : Word) (hop : w.extractLsb' 0 6 = 10) :
    decode w = .ok (.pop (operandOfFields (decodeFields w))) :=
  (decode_eq_ok_iff w (.pop _)).mpr ⟨hop.symm, rfl⟩

theorem exec_pop_imm (x : BitVec 20) (s : State) :
    exec (.pop (.imm x)) s = .next (s.raise .immediate s.instrAddr) :=
  exec_of_raises s _ _ (.popImm x)

theorem exec_pop_of_not_popOk (ad : Addr) (s : State) (hp : s.popOk = false) :
    exec (.pop (.mem ad)) s = .next (s.raise .segStack s.instrAddr) :=
  exec_of_raises s _ _ (.popStack ad hp)

theorem exec_pop_of_not_validData (ad : Addr) (s : State) (hp : s.popOk = true)
    (hv : s.validData (s.resolve ad) = false) :
    exec (.pop (.mem ad)) s = .next (s.raise .segData s.instrAddr) :=
  exec_of_raises s _ _ (.popData ad hp hv)

theorem exec_pop_of_validData (ad : Addr) (s : State) (hp : s.popOk = true)
    (hv : s.validData (s.resolve ad) = true) :
    exec (.pop (.mem ad)) s =
      .next ((s.setData (s.resolve ad) (s.dataAt (s.sp + 1))).setSp (s.sp + 1)) :=
  exec_of_effect s _ _ (.pop _ _ rfl hp hv)

/-- Settles O24: the pop test of R130 is the data range test at `sp + 1`; it comes between the test
of the form and the one of the destination. -/
theorem popIncrementsThenWrites : Obligations.PopIncrementsThenWrites := by
  unfold Obligations.PopIncrementsThenWrites
  exact ⟨decode_pop, exec_pop_imm, exec_pop_of_not_popOk, exec_pop_of_not_validData,
    exec_pop_of_validData⟩

/-! ### The symmetry of push and pop -/

/-- In `m` the word `v` is on top of the stack, where a push in `s` put it: `sp` is one below the
one of `s`, and the slot at the `sp` of `s` holds `v` (R133). -/
structure State.PushedIn (s : State) (v : Word) (m : State) : Prop where
  sp : m.sp = s.sp - 1
  datasize : m.datasize = s.datasize
  slot : m.dataAt s.sp = v

/-- What a push of `v` leaves: no write of another component counts. -/
theorem pushedIn_of_push {s t : State} {v : Word} (hwf : Memory.wf s.data = true)
    (hregs : t.regs = ((s.setData s.sp v).setSp (s.sp - 1)).regs)
    (hdata : t.data = ((s.setData s.sp v).setSp (s.sp - 1)).data)
    (hsize : t.datasize = s.datasize) : s.PushedIn v t where
  sp := (State.sp_congr _ t hregs).trans (State.sp_setSp _ _)
  datasize := hsize
  slot := (congrArg (Memory.read · s.sp.toNat) hdata).trans (dataAt_setData_same s s.sp v hwf)

/-- Whatever ran in between, a later state with the same `sp`, size and slot holds the word too. -/
theorem State.PushedIn.later {s t m : State} {v : Word} (ht : s.PushedIn v t)
    (hsp : m.sp = t.sp) (hsize : m.datasize = t.datasize)
    (hslot : Memory.read m.data s.sp.toNat = Memory.read t.data s.sp.toNat) :
    s.PushedIn v m where
  sp := hsp.trans ht.sp
  datasize := hsize.trans ht.datasize
  slot := hslot.trans ht.slot

section
variable {s m : State} {v : Word}

theorem State.PushedIn.sp_succ (hm : s.PushedIn v m) : m.sp + 1 = s.sp := by
  rw [hm.sp, BitVec.sub_add_cancel]

theorem State.PushedIn.top (hm : s.PushedIn v m) : m.dataAt (m.sp + 1) = v := by
  rw [hm.sp_succ, hm.slot]

/-- The slot a push wrote was a valid data index, so a pop may read it. -/
theorem State.PushedIn.popOk (hm : s.PushedIn v m) (hp : s.pushOk = true) : m.popOk = true :=
  calc m.popOk
    _ = m.validData s.sp := congrArg m.validData hm.sp_succ
    _ = s.validData s.sp := validData_congr s m hm.datasize s.sp
    _ = true := pushOk_validData s hp

end

/-- Settles O50: the pc the CALL saw is the word on top of the stack, and RET pops it. -/
theorem retReturnsBehindTheCall : Obligations.RetReturnsBehindTheCall := by
  unfold Obligations.RetReturnsBehindTheCall
  intro c ad s t m hwf hj hp hcall hsp hsize hslot
  rw [exec_call_taken c ad s hj hp, Host.Outcome.next.injEq] at hcall
  subst hcall
  have hm : s.PushedIn s.pc m := (pushedIn_of_push hwf rfl rfl rfl).later hsp hsize hslot
  have hret := exec_ret_of_popOk m (hm.popOk hp)
  rw [hm.top, hm.sp_succ] at hret
  exact hret

/-- Settles O51: the operand of the PUSH is the word on top of the stack, and POP copies it. -/
theorem popReturnsThePushedWord : Obligations.PopReturnsThePushedWord := by
  unfold Obligations.PopReturnsThePushedWord
  intro src v ad s t m hwf hp hv hpush hsp hsize hslot hdst
  rw [exec_push_of_operand hp hv, Host.Outcome.next.injEq] at hpush
  subst hpush
  have hm : s.PushedIn v m := (pushedIn_of_push hwf rfl rfl rfl).later hsp hsize hslot
  have hpop := exec_pop_of_validData ad m (hm.popOk hp) hdst
  rw [hm.top, hm.sp_succ] at hpop
  exact hpop

end Sys2Proof.Machine
end

section
/-! Fatal errors and warnings (spec/60_exceptions.md R140 to R149): what an instruction and a step
can report, said once, and that no step reads what was reported before. -/

namespace Sys2Proof.Machine

/-! ### The fatal errors of an instruction -/

theorem ne_nc_of_not_isNamed {c : Cond} (h : c.isNamed = false) : c ≠ .nc := by
  rintro rfl
  cases h

/-- Each test an instruction makes raises a kind that the table of R143 lists for its form. NC
passes the test of the condition whatever `cc` is (R78). -/
theorem mayRaise_of_raises (s : State) (i : Instr) (k : FatalKind) (h : Raises s i k) :
    mayRaise i k = true := by
  cases h with
  | illop | load | storeImm | store | add | sub | branchImm | callImm | callStack | ret | pushStack
  | pushData | popImm | popStack | popData => simp [mayRaise, Operand.isAddress]
  | branchCond c ad hc | callCond c ad hc =>
    have hne : c ≠ .nc := hc.elim ne_nc_of_not_isNamed And.left
    simp [mayRaise, Operand.isAddress, hne]

/-- `SegText` is the fetch's and `Unknown` nobody's (R141, R142): no test of an instruction raises
either. -/
theorem raises_kind (s : State) (i : Instr) (k : FatalKind) (h : Raises s i k) :
    k ≠ .segText ∧ k ≠ .unknown := by
  refine ⟨?_, ?_⟩
  · rintro rfl
    cases h
  · rintro rfl
    cases h

/-- A fault record that an instruction leaves on a running machine holds its own address. -/
theorem addr_of_exec_faulted (i : Instr) (s t : State) (k : FatalKind) (a : Int)
    (hr : s.run = .running) (h : exec i s = .next t) (ht : t.run = .faulted k a) :
    a = s.instrAddr.toInt := by
  have hk := raises_of_exec_faulted i s t k a hr h ht
  rw [exec_of_raises s i k hk, Host.Outcome.next.injEq] at h
  subst h
  cases ht
  rfl

/-- Settles O39: the fault is one the instruction raises, and every such kind is in the table. -/
theorem onlyTheListedFaultsAreRaised : Obligations.OnlyTheListedFaultsAreRaised := by
  unfold Obligations.OnlyTheListedFaultsAreRaised
  intro i s t k a hr h ht
  exact ⟨mayRaise_of_raises s i k (raises_of_exec_faulted i s t k a hr h ht),
    addr_of_exec_faulted i s t k a hr h ht⟩

/-- Settles O31: the fetch raises before the advance, and no test of an instruction raises
`SegText`. -/
theorem pcOutsideTheTextRaisesSegText : Obligations.PcOutsideTheTextRaisesSegText := by
  unfold Obligations.PcOutsideTheTextRaisesSegText
  refine ⟨step_of_pc_invalid, fun i s t a hr h ht => ?_⟩
  have hk := raises_of_exec_faulted i s t .segText a hr h ht
  exact (raises_kind s i .segText hk).1 rfl

/-- Settles O55: no pc is an index of the empty text. -/
theorem firstStepWithNoProgramRaisesSegText :
    Obligations.FirstStepWithNoProgramRaisesSegText := by
  unfold Obligations.FirstStepWithNoProgramRaisesSegText
  exact step_of_pc_invalid State.reset rfl rfl

/-! ### The reports of a step -/

/-- All an instruction that completes does to `run` and the warning log: nothing, the report of a
HALT, or the warning of a PUSH. -/
theorem effect_reports (s t : State) (i : Instr) (h : Effect s i t) :
    (t.run = s.run ∧ t.warnings = s.warnings) ∨
      (t.run = .halted ∧ t.warnings = s.warnings ++ [⟨.halt, s.instrAddr.toInt⟩]) ∨
      (t.run = s.run ∧ t.warnings = s.warnings ++ [⟨.pushStatic, s.instrAddr.toInt⟩] ∧
        opcodeOf i = 9 ∧ t.sp.toInt < s.dataend) := by
  cases h with
  | nop | load | store | add | sub | branchTaken | branchNotTaken | callTaken | callNotTaken | ret
  | push | pop => exact .inl ⟨rfl, rfl⟩
  | halt => exact .inr (.inl ⟨rfl, rfl⟩)
  | pushStatic src v hp hv hw =>
    refine .inr (.inr ⟨rfl, rfl, rfl, ?_⟩)
    rwa [State.sp_warn, State.sp_setSp]

/-- All a step from `s` to `t` can report, one case for each report (R146, R149). The address in it
is the pc the step began with. -/
inductive StepReports (s t : State) : Prop
  | silent (hrun : t.run = .running) (hlog : t.warnings = s.warnings)
  | halt (hv : s.validText s.pc = true) (hrun : t.run = .halted)
      (hlog : t.warnings = s.warnings ++ [⟨.halt, s.pc.toInt⟩])
  | pushStatic (hv : s.validText s.pc = true) (hop : (s.textAt s.pc).extractLsb' 0 6 = 9)
      (hsp : t.sp.toInt < s.dataend) (hrun : t.run = .running)
      (hlog : t.warnings = s.warnings ++ [⟨.pushStatic, s.pc.toInt⟩])
  | segText (hv : s.validText s.pc = false) (ht : t = s.raise .segText s.pc)
  | fault (k : FatalKind) (hv : s.validText s.pc = true) (htext : k ≠ .segText)
      (hunknown : k ≠ .unknown) (ht : t = s.advance.raise k s.pc)

/-- The handler runs after the advance, so the address it reports is the pc before it. -/
theorem stepReports_of_exec (i : Instr) (s t : State) (hr : s.run = .running)
    (hv : s.validText s.pc = true) (hd : decode (s.textAt s.pc) = .ok i)
    (h : exec i s.advance = .next t) : StepReports s t := by
  rcases exec_cases i s.advance t h with he | ⟨k, hk, rfl⟩
  · have hreports := effect_reports s.advance t i he
    rw [instrAddr_advance] at hreports
    obtain ⟨hrun, hlog⟩ | ⟨hrun, hlog⟩ | ⟨hrun, hlog, hop, hsp⟩ := hreports
    · exact .silent (hrun.trans hr) hlog
    · exact .halt hv hrun hlog
    · exact .pushStatic hv ((opcode_bits_of_decode hd).trans hop) hsp (hrun.trans hr) hlog
  · obtain ⟨htext, hunknown⟩ := raises_kind s.advance i k hk
    rw [instrAddr_advance]
    exact .fault k hv htext hunknown rfl

theorem step_reports (s t : State) (h : step s = .next t) : StepReports s t := by
  obtain ⟨hr, ⟨hv, ht⟩ | ⟨hv, -, ht⟩ | ⟨hv, i, hd, hexec⟩⟩ := step_cases s t h
  · exact .segText hv ht
  · exact .fault .illegal hv (by decide) (by decide) ht
  · exact stepReports_of_exec i s t hr hv hd hexec

/-- Settles O38: the two reports that end in Faulted are a fatal error taken in `s`, or in `s` after
the advance, and nothing else. -/
theorem fatalErrorsArePrecise : Obligations.FatalErrorsArePrecise := by
  unfold Obligations.FatalErrorsArePrecise
  intro s t k a _ hstep ht
  cases step_reports s t hstep with
  | silent hrun | halt _ hrun | pushStatic _ _ _ hrun => cases hrun.symm.trans ht
  | segText hv e =>
    subst e
    cases ht
    exact ⟨rfl, iff_of_true rfl hv, rfl⟩
  | fault k' hv htext hunknown e =>
    subst e
    cases ht
    refine ⟨rfl, iff_of_false htext (by simp [hv]), ?_⟩
    rw [if_neg htext]
    rfl

/-- Settles O45: of the reports of a step two are warnings, and each appends one. -/
theorem atMostOneWarningPerStep : Obligations.AtMostOneWarningPerStep := by
  unfold Obligations.AtMostOneWarningPerStep
  intro s t _ hstep
  cases step_reports s t hstep with
  | silent hrun hlog => exact .inl hlog
  | halt hv hrun hlog => exact .inr (.inl ⟨hlog, hrun⟩)
  | pushStatic hv hop hsp hrun hlog => exact .inr (.inr ⟨hlog, hrun, hop, hsp⟩)
  | segText hv ht | fault k hv htext hunknown ht =>
    subst ht
    exact .inl rfl

/-! ### The invariant of the reports -/

/-- The log of a run that has not ended by a HALT: warnings of PUSH alone, each with the address of
an instruction. -/
def PushStaticLog (textsize : Nat) (ws : List Warning) : Prop :=
  ∀ w ∈ ws, isTextIndex textsize w.addr = true ∧ w.kind = .pushStatic

theorem PushStaticLog.append {n : Nat} {ws : List Warning} {a : Int} (hws : PushStaticLog n ws)
    (ha : isTextIndex n a = true) : PushStaticLog n (ws ++ [⟨.pushStatic, a⟩]) := by
  intro w hw
  obtain hw | hw := List.mem_append.mp hw
  · exact hws w hw
  · obtain rfl := List.mem_singleton.mp hw
    exact ⟨ha, rfl⟩

/-- A word is a valid text address exactly where a report with its signed reading may hold it. -/
theorem isTextIndex_toInt (s : State) (v : Word) :
    isTextIndex s.textsize v.toInt = s.validText v := rfl

theorem reportsOk_iff_of_running (s : State) (hr : s.run = .running) :
    s.reportsOk = true ↔ PushStaticLog s.textsize s.warnings := by
  simp [State.reportsOk, hr, PushStaticLog, forall_and]

theorem reportsOk_of_halted (s : State) (ws : List Warning) (a : Int) (hr : s.run = .halted)
    (hlog : s.warnings = ws ++ [⟨.halt, a⟩]) (hws : PushStaticLog s.textsize ws)
    (ha : isTextIndex s.textsize a = true) : s.reportsOk = true := by
  obtain ⟨haddr, hkind⟩ := forall₂_and.mp hws
  simpa [State.reportsOk, hr, hlog, ha] using ⟨haddr, hkind⟩

theorem reportsOk_of_faulted (s : State) (k : FatalKind) (a : Int) (hr : s.run = .faulted k a)
    (hlog : PushStaticLog s.textsize s.warnings) (hk : k ≠ .unknown)
    (ha : isTextIndex s.textsize a = decide (k ≠ .segText)) : s.reportsOk = true := by
  obtain ⟨haddr, hkind⟩ := forall₂_and.mp hlog
  simpa [State.reportsOk, hr, hk, ha, beq_eq_decide] using ⟨haddr, hkind⟩

/-- Settles O37: a step begins with the log of a run that has not ended, and each of its reports
carries the pc it began with, which is a text index but for `SegText`. -/
theorem everyStepKeepsTheReportsTrue : Obligations.EveryStepKeepsTheReportsTrue := by
  unfold Obligations.EveryStepKeepsTheReportsTrue
  intro s t hs hstep
  obtain ⟨hr, -⟩ := step_cases s t hstep
  have hsize : t.textsize = s.textsize := (step_writesInsideData s t hstep).textsize
  have hlogs : PushStaticLog t.textsize s.warnings :=
    hsize ▸ (reportsOk_iff_of_running s hr).mp hs
  have hpc : isTextIndex t.textsize s.pc.toInt = s.validText s.pc := by
    rw [hsize, isTextIndex_toInt]
  cases step_reports s t hstep with
  | silent hrun hlog =>
    rw [reportsOk_iff_of_running t hrun, hlog]
    exact hlogs
  | halt hv hrun hlog =>
    exact reportsOk_of_halted t s.warnings s.pc.toInt hrun hlog hlogs (hpc.trans hv)
  | pushStatic hv hop hsp hrun hlog =>
    rw [reportsOk_iff_of_running t hrun, hlog]
    exact hlogs.append (hpc.trans hv)
  | segText hv ht =>
    subst ht
    exact reportsOk_of_faulted _ .segText s.pc.toInt rfl hlogs nofun (hpc.trans hv)
  | fault k hv htext hunknown ht =>
    subst ht
    exact reportsOk_of_faulted _ k s.pc.toInt rfl hlogs hunknown
      ((hpc.trans hv).trans (decide_eq_true htext).symm)

/-! ### The warning log is not read -/

/-- What appends nothing to the log of `s` appends nothing to another one. -/
theorem exists_appended_of_silent (P : State → Prop) {s t : State} {ws : List Warning}
    (hlog : t.warnings = s.warnings) (h : P { t with warnings := ws }) :
    ∃ new, t.warnings = s.warnings ++ new ∧ P { t with warnings := ws ++ new } := by
  refine ⟨[], ?_, ?_⟩
  · rw [hlog, List.append_nil]
  · rwa [List.append_nil]

theorem effect_with_warnings (s t : State) (i : Instr) (ws : List Warning) (h : Effect s i t) :
    ∃ new, t.warnings = s.warnings ++ new ∧
      Effect { s with warnings := ws } i { t with warnings := ws ++ new } := by
  have hop := operand_congr s { s with warnings := ws } rfl rfl rfl
  have had := address_congr s { s with warnings := ws } rfl
  cases h with
  | halt => exact ⟨_, rfl, .halt⟩
  | pushStatic src v hp hv hw => exact ⟨_, rfl, .pushStatic src v hp ((hop src).trans hv) hw⟩
  | nop => exact exists_appended_of_silent (Effect _ _) rfl .nop
  | load r src v hv =>
    exact exists_appended_of_silent (Effect _ _) rfl (.load r src v ((hop src).trans hv))
  | store r dst ea ha hd =>
    exact exists_appended_of_silent (Effect _ _) rfl (.store r dst ea ((had dst).trans ha) hd)
  | add r src v hv =>
    exact exists_appended_of_silent (Effect _ _) rfl (.add r src v ((hop src).trans hv))
  | sub r src v hv =>
    exact exists_appended_of_silent (Effect _ _) rfl (.sub r src v ((hop src).trans hv))
  | branchTaken c target ea ha hj =>
    exact exists_appended_of_silent (Effect _ _) rfl
      (.branchTaken c target ea ((had target).trans ha) hj)
  | branchNotTaken c target ea ha hj =>
    exact exists_appended_of_silent (Effect _ _) rfl
      (.branchNotTaken c target ea ((had target).trans ha) hj)
  | callTaken c target ea ha hj hp =>
    exact exists_appended_of_silent (Effect _ _) rfl
      (.callTaken c target ea ((had target).trans ha) hj hp)
  | callNotTaken c target ea ha hj =>
    exact exists_appended_of_silent (Effect _ _) rfl
      (.callNotTaken c target ea ((had target).trans ha) hj)
  | ret hp => exact exists_appended_of_silent (Effect _ _) rfl (.ret hp)
  | push src v hp hv hw =>
    exact exists_appended_of_silent (Effect _ _) rfl (.push src v hp ((hop src).trans hv) hw)
  | pop dst ea ha hp hd =>
    exact exists_appended_of_silent (Effect _ _) rfl (.pop dst ea ((had dst).trans ha) hp hd)

theorem exec_with_warnings (i : Instr) (s t : State) (ws : List Warning)
    (h : exec i s = .next t) :
    ∃ new, t.warnings = s.warnings ++ new ∧
      exec i { s with warnings := ws } = .next { t with warnings := ws ++ new } := by
  rcases exec_cases i s t h with he | ⟨k, hk, rfl⟩
  · obtain ⟨new, hlog, he'⟩ := effect_with_warnings s t i ws he
    exact ⟨new, hlog, exec_of_effect _ _ i he'⟩
  · have hk' : Raises { s with warnings := ws } i k :=
      raises_congr (s := s) rfl rfl (.inl rfl) hk
    exact exists_appended_of_silent (exec i { s with warnings := ws } = .next ·) rfl
      (exec_of_raises _ i k hk')

/-- Settles O46: neither the fetch nor an instruction reads the log. -/
theorem warningsAreNeverRead : Obligations.WarningsAreNeverRead := by
  unfold Obligations.WarningsAreNeverRead
  intro s t ws hstep
  obtain ⟨hr, ⟨hv, rfl⟩ | ⟨hv, ⟨e, hd⟩, rfl⟩ | ⟨hv, i, hd, hexec⟩⟩ := step_cases s t hstep
  · exact exists_appended_of_silent (step { s with warnings := ws } = .next ·) rfl
      (step_of_pc_invalid { s with warnings := ws } hr hv)
  · exact exists_appended_of_silent (step { s with warnings := ws } = .next ·) rfl
      (step_of_undecodable { s with warnings := ws } e hr hv hd)
  · obtain ⟨new, hlog, hexec'⟩ := exec_with_warnings i s.advance t ws hexec
    exact ⟨new, hlog, (step_of_decode { s with warnings := ws } i hr hv hd).trans hexec'⟩

end Sys2Proof.Machine
end
